-- ==== Sys2Proof/Word.lean ====
section
/-! DEFINITION. The bit vectors of the decoder pipeline: the byte of the input stream (R7, R26), the 16-bit
quantity assembled from two bytes (R29), and the 3-bit register field (R42). Everything else in the model that
the spec counts, measures or names has a type of its own. -/

namespace Sys2Proof

/-- One byte of the input: "an 8-bit unsigned value, 0..255" (R7), `b[0]` least significant. -/
abbrev Byte := BitVec 8

/-- A 16-bit unsigned quantity of the instruction stream: `U16` of two bytes, 0..65535 (R9, R29). -/
abbrev Word16 := BitVec 16

/-- A 3-bit field naming a register or a base expression, 0..7 (R42, R44). -/
abbrev RegField := BitVec 3

end Sys2Proof
end

