-- ==== Sys2Proof/Config.lean ====
section
/-! DEFINITION. What is fixed for the machine and is no state of it (R6). The pattern table, the register-name
tables and the base-expression table, also fixed parameters of R6, stand where they are used (Decode.lean,
Machine/Operands.lean). `OFFSET_W` is the one parameter the spec leaves OPEN (R6, D2): the model takes the offset
as an unbounded natural, as R6 allows, and the statements about its width are made for every `W` with
`LEN < 2^W` (log entry 3). -/

namespace Sys2Proof

/-- The entry point: "buffer index 0" (R25, R140). -/
def Config.startIndex : Nat := 0

/-- DESIGN CHOICE (log entry 1): the byte an address below `LEN` holds when the buffer's list does not name it.
It makes the list of a buffer canonical; every byte below `LEN` is the collaborator's (R26), so this is how a
zero byte is written down, not a value the machine supplies. -/
def Config.unlistedByte : Byte := 0#8

end Sys2Proof
end

