-- ==== Sys2Proof/Syntax.lean ====
section
/-! DEFINITION. The syntax: the data types that flow through the block (R23), the error kinds (R120), the shape of a
classifier pattern (R71), and the instructions, one constructor per row of spec/opcode_table.json. -/

namespace Sys2Proof

/-- `Width`, the meaning of a `w` bit: 0 = byte, 1 = word (R23, R44). -/
inductive Width where
  | byte
  | word
  deriving DecidableEq, Repr

/-- `Direction`, the meaning of the `d` bit: 0 = the `reg` operand is the source, 1 = it is the destination (R23, R44). -/
inductive Direction where
  | regIsSource
  | regIsDestination
  deriving DecidableEq, Repr

/-- `AddressingMode`, the meaning of the `mod` field (R23, R81). -/
inductive AddressingMode where
  | memoryNoDisplacement
  | memoryDisplacement8
  | memoryDisplacement16
  | registerMode
  deriving DecidableEq, Repr

/-- `InstructionVariant`: the seven results of classification (R2, R23). -/
inductive Variant where
  | regToFromReg
  | immediateToReg
  | immediateToRegMemory
  | memToAcc
  | accToMem
  | regToSegment
  | segmentToReg
  deriving DecidableEq, Repr

/-- The closed enumeration of error kinds (R120). The last three of `ambiguousOpcode`, `invalidWidth` and
`malformedField` are kept although no buffer reaches them (R61, R66, R74; D21). -/
inductive ErrorKind where
  | unrecognizedOpcode
  | ambiguousOpcode
  | truncatedStream
  | invalidWidth
  | malformedField
  | unsupportedVariant
  deriving DecidableEq, Repr

/-- One triple (bit-pattern, length, variant) of the classifier's table (R70, R71): `bits` is the pattern read as a
number, `length` how many of the byte's leading bits it covers. -/
structure Pattern where
  bits : Nat
  length : Nat
  variant : Variant
  deriving DecidableEq, Repr

/-- A register designator `Reg(w, f)`: a register named and not held (R17). -/
structure Reg where
  w : Width
  f : RegField
  deriving DecidableEq, Repr

/-- The `mod`/`rm` part of a mod/reg/rm instruction with its 0, 1 or 2 trailing bytes (R42, R43), before it is
resolved to an operand. -/
inductive Ea where
  | register (rm : RegField)              -- mod = 11
  | base (rm : RegField)                  -- mod = 00, rm ≠ 110
  | direct (addr : Word16)                -- mod = 00, rm = 110: addr-lo addr-hi
  | disp8 (rm : RegField) (disp : Byte)   -- mod = 01: disp8
  | disp16 (rm : RegField) (disp : Word16) -- mod = 10: disp-lo disp-hi
  deriving DecidableEq, Repr

/-- The instructions, one constructor per row of spec/opcode_table.json, in the table's order. An instruction here is
what the block decodes, not what an 8086 would do with it (R17, R28). -/
inductive Instr where
  | movRmReg (w : Width) (reg : RegField) (ea : Ea)       -- 1000100w: mov r/m, reg (R110)
  | movRegRm (w : Width) (reg : RegField) (ea : Ea)       -- 1000101w: mov reg, r/m (R111)
  | movReg8Imm8 (reg : RegField) (imm : Byte)             -- 10110rrr: mov reg8, imm8 (R112)
  | movReg16Imm16 (reg : RegField) (imm : Word16)         -- 10111rrr: mov reg16, imm16 (R112)
  | movAxAddr8 (addr : Byte)                              -- 10100000: mov ax, [addr8] (R113)
  | movAxAddr16 (addr : Word16)                           -- 10100001: mov ax, [addr16] (R113)
  | movAddr8Ax (addr : Byte)                              -- 10100010: mov [addr8], ax (R114)
  | movAddr16Ax (addr : Word16)                           -- 10100011: mov [addr16], ax (R114)
  | immediateToRegMemory (x : BitVec 1)                   -- 1100011x: recognised, unsupported (R115)
  | regToSegment                                          -- 10001110: recognised, unsupported (R116)
  | segmentToReg                                          -- 10001100: recognised, unsupported (R117)
  deriving DecidableEq, Repr

end Sys2Proof
end

