-- ==== Sys2Proof/WellFormed.lean ====
section
/-! DEFINITION. Which terms of `Instr` are instructions. The field widths are in the types; the one combination the types
admit and no encoding produces is a bare `[bp]`. -/

namespace Sys2Proof

/-- "There is no encoding of `[bp]` without displacement": `mod = 00, rm = 110` is the direct address (R84). -/
def Ea.wf : Ea → Bool
  | .base rm => rm != 6#3
  | .register _ | .direct _ | .disp8 _ _ | .disp16 _ _ => true

/-- The instruction has an encoding (R40 to R43). -/
def Instr.wf : Instr → Bool
  | .movRmReg _ _ ea => ea.wf
  | .movRegRm _ _ ea => ea.wf
  | .movReg8Imm8 _ _ => true
  | .movReg16Imm16 _ _ => true
  | .movAxAddr8 _ => true
  | .movAxAddr16 _ => true
  | .movAddr8Ax _ => true
  | .movAddr16Ax _ => true
  | .immediateToRegMemory _ => true
  | .regToSegment => true
  | .segmentToReg => true

end Sys2Proof
end

