-- ==== Sys2Proof/Decode.lean ====
section
/-! DEFINITION. From bytes to an instruction: the bit-field reader BFX (R60 to R63), the width contract of REGX (R66), the
opcode classifier CLS (R70 to R77), the reading of the fields and trailing bytes of each variant (R40 to R47, R110
to R117), in the order classification, support, fetches (R129); and, after it, the encoder. `decode` is total on any
bytes and rejects with the spec's own error kind. -/

namespace Sys2Proof

/-! ### BFX, the bit-field reader -/

/-- `Field(b, s, n)` (R60): the `n` bits of `b` from D0's bit index `s`, most significant first, as an unsigned number.
An index outside 0..7 is `MalformedField` (R61); a width other than 1, 2 or 3 is outside the reader's domain (R60) and
taken as the same error (R125; DEDUCED, log entry 9). -/
def field (b : Byte) (s : Int) (n : Nat) : Except ErrorKind (BitVec n) :=
  if 0 ≤ s ∧ s ≤ 7 ∧ s + n - 1 ≤ 7 ∧ 1 ≤ n ∧ n ≤ 3 then
    .ok (BitVec.ofNat n (b.toNat / 2 ^ (8 - s - n).toNat))
  else
    .error .malformedField

/-- `U16(lo, hi) = hi ∥ lo = 256*hi + lo` (R62): little-endian, the byte at the lower index first. -/
def u16 (lo hi : Byte) : Word16 := BitVec.ofNat 16 (256 * hi.toNat + lo.toNat)

/-- `S8(b)`: the signed reading of a byte (R9, R63). -/
def s8 (b : Byte) : Int := if 128 ≤ b.toNat then (b.toNat : Int) - 256 else b.toNat

/-- `S16(v)`: the signed reading of a 16-bit value (R9, R63). -/
def s16 (v : Word16) : Int := if 32768 ≤ v.toNat then (v.toNat : Int) - 65536 else v.toNat

/-! ### The meaning of the one- and two-bit fields -/

/-- The contract of REGX on its width input (R66): 0 or 1, "any other width-bit value" is `InvalidWidth`. -/
def width (bit : Nat) : Except ErrorKind Width :=
  match bit with
  | 0 => .ok .byte
  | 1 => .ok .word
  | _ => .error .invalidWidth

/-- The `w` bit that stands for a width (R44). -/
def Width.bit : Width → BitVec 1
  | .byte => 0#1
  | .word => 1#1

/-- The meaning of the `d` bit (R44). -/
def direction (bit : BitVec 1) : Direction :=
  if bit = 0#1 then .regIsSource else .regIsDestination

/-- `mod` to `AddressingMode`: 00, 01, 10, 11 in order (R81). -/
def addressingMode (mod : BitVec 2) : AddressingMode :=
  if mod = 0#2 then .memoryNoDisplacement
  else if mod = 1#2 then .memoryDisplacement8
  else if mod = 2#2 then .memoryDisplacement16
  else .registerMode

/-! ### CLS, the opcode classifier -/

/-- The pattern table `PATTERNS`, seven triples (R71). Patterns 3 to 7 are the spec's own, from general knowledge
(R71, D5, G1; PRESUMED, log entry 12). -/
def patterns : List Pattern :=
  [ ⟨0b100010, 6, .regToFromReg⟩,
    ⟨0b1011, 4, .immediateToReg⟩,
    ⟨0b1100011, 7, .immediateToRegMemory⟩,
    ⟨0b1010000, 7, .memToAcc⟩,
    ⟨0b1010001, 7, .accToMem⟩,
    ⟨0b10001110, 8, .regToSegment⟩,
    ⟨0b10001100, 8, .segmentToReg⟩ ]

/-- A pattern matches when it equals the first `L` bits of the byte, most significant first (R72). -/
def Pattern.fits (p : Pattern) (b1 : Byte) : Bool :=
  b1.toNat / 2 ^ (8 - p.length) == p.bits

/-- The classifier's policy over a table (R73): every triple is tested; none matching is `UnrecognizedOpcode`, several are
`AmbiguousOpcode`, exactly one gives its variant. -/
def classifyWith (table : List Pattern) (b1 : Byte) : Except ErrorKind Variant :=
  match table.filter (fun p => p.fits b1) with
  | [] => .error .unrecognizedOpcode
  | [p] => .ok p.variant
  | _ :: _ :: _ => .error .ambiguousOpcode

/-- `classify` (R70): the policy over the block's own table. -/
def classify (b1 : Byte) : Except ErrorKind Variant := classifyWith patterns b1

/-! ### Reading the bytes after the opcode byte

`bs` is the stream from the byte in question to the end of the buffer: its k-th element is `buf[p + k]`, and it has no
element at or past `LEN`. -/

/-- `Fetch(p + k)` (R27): the byte, or `TruncatedStream` where the stream has ended. -/
def byteAt (bs : List Byte) (k : Nat) : Except ErrorKind Byte :=
  match bs[k]? with
  | some b => .ok b
  | none => .error .truncatedStream

/-- `MemRead(p + k, 2)` (R9, R29): two fetches in ascending order, low byte first. -/
def wordAt (bs : List Byte) (k : Nat) : Except ErrorKind Word16 := do
  let lo ← byteAt bs k
  let hi ← byteAt bs (k + 1)
  .ok (u16 lo hi)

/-- AMR's reading of the trailing bytes (R82 to R86), from the first byte after the mod/reg/rm byte. -/
def readEa (mode : AddressingMode) (rm : RegField) (rest : List Byte) : Except ErrorKind Ea :=
  match mode with
  | .registerMode => .ok (.register rm)
  | .memoryNoDisplacement =>
    if rm = 6#3 then do
      let a ← wordAt rest 0
      .ok (.direct a)
    else .ok (.base rm)
  | .memoryDisplacement8 => do
    let d ← byteAt rest 0
    .ok (.disp8 rm d)
  | .memoryDisplacement16 => do
    let d ← wordAt rest 0
    .ok (.disp16 rm d)

/-- `decode_v` of `regToFromReg` (R110, R111): fields `w`, `d` of byte 1; `mod`, `reg`, `rm` of byte 2; then AMR's bytes. -/
def decodeRegToFromReg (b1 : Byte) (bs : List Byte) : Except ErrorKind Instr := do
  let w ← width (← field b1 7 1).toNat
  let d ← field b1 6 1
  let b2 ← byteAt bs 1
  let mod ← field b2 0 2
  let reg ← field b2 2 3
  let rm ← field b2 5 3
  let ea ← readEa (addressingMode mod) rm (bs.drop 2)
  match direction d with
  | .regIsSource => .ok (.movRmReg w reg ea)
  | .regIsDestination => .ok (.movRegRm w reg ea)

/-- `decode_v` of `immediateToReg` (R112): fields `w`, `reg` of byte 1, then one or two data bytes. -/
def decodeImmediateToReg (b1 : Byte) (bs : List Byte) : Except ErrorKind Instr := do
  let w ← width (← field b1 4 1).toNat
  let reg ← field b1 5 3
  match w with
  | .byte => do
    let v ← byteAt bs 1
    .ok (.movReg8Imm8 reg v)
  | .word => do
    let v ← wordAt bs 1
    .ok (.movReg16Imm16 reg v)

/-- `decode_v` of `memToAcc` (R113): `w` of byte 1 selects one or two address bytes. -/
def decodeMemToAcc (b1 : Byte) (bs : List Byte) : Except ErrorKind Instr := do
  let w ← width (← field b1 7 1).toNat
  match w with
  | .byte => do
    let a ← byteAt bs 1
    .ok (.movAxAddr8 a)
  | .word => do
    let a ← wordAt bs 1
    .ok (.movAxAddr16 a)

/-- `decode_v` of `accToMem` (R114): as `memToAcc`. -/
def decodeAccToMem (b1 : Byte) (bs : List Byte) : Except ErrorKind Instr := do
  let w ← width (← field b1 7 1).toNat
  match w with
  | .byte => do
    let a ← byteAt bs 1
    .ok (.movAddr8Ax a)
  | .word => do
    let a ← wordAt bs 1
    .ok (.movAddr16Ax a)

/-- The variant decoder the classifier selects (R101). The unsupported variants are told by byte 1 alone: nothing after
it is read (R115 to R117). -/
def decodeVariant (v : Variant) (b1 : Byte) (bs : List Byte) : Except ErrorKind Instr :=
  match v with
  | .regToFromReg => decodeRegToFromReg b1 bs
  | .immediateToReg => decodeImmediateToReg b1 bs
  | .memToAcc => decodeMemToAcc b1 bs
  | .accToMem => decodeAccToMem b1 bs
  | .immediateToRegMemory => .ok (.immediateToRegMemory (BitVec.ofNat 1 b1.toNat))
  | .regToSegment => .ok .regToSegment
  | .segmentToReg => .ok .segmentToReg

/-- The instruction at the head of a stream, or the error kind the block raises there (R101, R129). -/
def decode (bs : List Byte) : Except ErrorKind Instr := do
  let b1 ← byteAt bs 0
  let v ← classify b1
  decodeVariant v b1 bs

/-! ### The encoder -/

/-- The `mod` field of a mod/rm part (R44). -/
def Ea.mod : Ea → BitVec 2
  | .register _ => 3#2
  | .base _ => 0#2
  | .direct _ => 0#2
  | .disp8 _ _ => 1#2
  | .disp16 _ _ => 2#2

/-- The `rm` field of a mod/rm part; the direct address is `rm = 110` (R44, R84). -/
def Ea.rm : Ea → RegField
  | .register rm => rm
  | .base rm => rm
  | .direct _ => 6#3
  | .disp8 rm _ => rm
  | .disp16 rm _ => rm

/-- A 16-bit quantity as the stream holds it, low byte first (R29). -/
def lowHigh (v : Word16) : List Byte := [v.setWidth 8, (v >>> 8).setWidth 8]

/-- The trailing bytes of a mod/rm part (R43). -/
def Ea.trailing : Ea → List Byte
  | .register _ => []
  | .base _ => []
  | .direct a => lowHigh a
  | .disp8 _ d => [d]
  | .disp16 _ d => lowHigh d

/-- Byte 1 of `regToFromReg`: `100010 d w` (R41). -/
def opRegToFromReg (d : BitVec 1) (w : Width) : Byte := 0b100010#6 ++ (d ++ w.bit)

/-- Byte 1 of `immediateToReg`: `1011 w reg` (R41). -/
def opImmediateToReg (w : Width) (reg : RegField) : Byte := 0b1011#4 ++ (w.bit ++ reg)

/-- Byte 2 of `regToFromReg`: `mod reg rm` (R42). -/
def modRegRm (mod : BitVec 2) (reg rm : RegField) : Byte := mod ++ (reg ++ rm)

/-- The bytes of an instruction, from the formats of R41 to R43; of an unsupported variant the opcode byte, the only byte
the block knows it by (R40, R115 to R117). -/
def encode : Instr → List Byte
  | .movRmReg w reg ea => opRegToFromReg 0#1 w :: modRegRm ea.mod reg ea.rm :: ea.trailing
  | .movRegRm w reg ea => opRegToFromReg 1#1 w :: modRegRm ea.mod reg ea.rm :: ea.trailing
  | .movReg8Imm8 reg v => [opImmediateToReg .byte reg, v]
  | .movReg16Imm16 reg v => opImmediateToReg .word reg :: lowHigh v
  | .movAxAddr8 a => [0xA0#8, a]
  | .movAxAddr16 a => 0xA1#8 :: lowHigh a
  | .movAddr8Ax a => [0xA2#8, a]
  | .movAddr16Ax a => 0xA3#8 :: lowHigh a
  | .immediateToRegMemory x => [0b1100011#7 ++ x]
  | .regToSegment => [0x8E#8]
  | .segmentToReg => [0x8C#8]

/-- `bytesConsumed` of a mod/rm part: how many bytes follow the mod/reg/rm byte (R89). -/
def Ea.bytesConsumed : Ea → Nat
  | .register _ => 0
  | .base _ => 0
  | .direct _ => 2
  | .disp8 _ _ => 1
  | .disp16 _ _ => 2

/-- `encodedLength` of an instruction (R40); the three unsupported variants have none. -/
def Instr.encodedLength : Instr → Option Nat
  | .movRmReg _ _ ea => some (2 + ea.bytesConsumed)
  | .movRegRm _ _ ea => some (2 + ea.bytesConsumed)
  | .movReg8Imm8 _ _ => some 2
  | .movReg16Imm16 _ _ => some 3
  | .movAxAddr8 _ => some 2
  | .movAxAddr16 _ => some 3
  | .movAddr8Ax _ => some 2
  | .movAddr16Ax _ => some 3
  | .immediateToRegMemory _ => none
  | .regToSegment => none
  | .segmentToReg => none

/-! ### Table words -/

/-- The first four bytes (the longest instruction, R40) of a word of `nbits` bits numbered as spec/opcode_table.json
numbers them, the bits above `nbits` zero. -/
def tableBytes (nbits w : Nat) : List Byte :=
  let v := w % 2 ^ nbits
  [BitVec.ofNat 8 v, BitVec.ofNat 8 (v / 2 ^ 8), BitVec.ofNat 8 (v / 2 ^ 16), BitVec.ofNat 8 (v / 2 ^ 24)]

/-- What the decoder reads from a table word; none where it refuses. -/
def decodeTableWord (nbits w : Nat) : Option Instr :=
  (decode (tableBytes nbits w)).toOption

end Sys2Proof
end

