-- ==== Sys2Proof/Machine/State.lean ====
section
/-! DEFINITION. The state of the decoder pipeline (R10 to R16, R25) and the two ways a step can end without a next
state. The block holds no general register, no flag, no accumulator and no hidden state (R17, R20 to R22): its own
state is `st`; `out` is the consumer's trace of what it emitted (R15); `buf`, `len` and `debug` are the inputs of a run,
held stable by the collaborator (R16, R37), and stand here because a step reads them (log entry 2). -/

namespace Sys2Proof.Machine

/-- `Operand` of a record (R23). The 16-bit constructors hold their value unsigned, 0..65535; a displacement is a signed
integer; `immediate` is the spec's own fourth constructor (D8). -/
inductive Operand where
  | register (r : Reg)                            -- a designator (R17)
  | memory (rm : RegField) (disp : Option Int)    -- `rm` selects the base expression (R87)
  | directAddress (a : Word16)
  | immediate (v : Word16)
  deriving DecidableEq, Repr

/-- The mnemonic of every record the block can emit (R94). -/
inductive Mnemonic where
  | mov
  deriving DecidableEq, Repr

/-- `DecodedInstruction` (R23): what one successful step emits. -/
structure Record where
  mnemonic : Mnemonic
  destination : Operand
  source : Operand
  encodedLength : Nat
  deriving DecidableEq, Repr

/-- The driver state `st` (R11). `fault` is the terminal state of a run stopped by an error, with the fault record of
R14: the kind, the index of the opcode byte of the instruction that could not be decoded, and that byte. -/
inductive DriverState where
  | running (offset : Nat)
  | done
  | fault (kind : ErrorKind) (start : Nat) (byte : Byte)
  deriving DecidableEq, Repr

/-- The bytes of the input buffer, as (address, byte) pairs: addresses strictly rising, no entry equal to what an
unlisted address reads as (log entry 1). -/
abbrev Memory := List Host.Cell

/-- The canonical form of a memory. -/
abbrev Memory.wf (m : Memory) : Prop :=
  m.Pairwise (fun p q => p.1 < q.1) ∧ ∀ c ∈ m, c.2 ≠ Config.unlistedByte

/-- Why the machine stops: it is in a terminal state, which has no outgoing transition except reset (R11, R100). No
decode error is one of these: a decode error is a next state whose `st` is `fault` (R130). -/
inductive Fault where
  /-- Raised by `step` and every meaning in `Done` (R103). Safe: the spec gives no step there. -/
  | runDone
  /-- Raised by `step` and every meaning in `Fault(kind, at, byte)` (R104, R132). Safe: the spec gives no step there. -/
  | runFaulted
  deriving DecidableEq, Repr

/-- Why an instruction has no meaning in the model. -/
inductive Refusal where
  /-- Raised by the dispatch for an instruction that has no meaning yet; no arm does. Safe. -/
  | notModelled (mnemonic : String)
  deriving DecidableEq, Repr

/-- Everything the spec gives the machine (R10, R15, R16, R25). -/
structure State where
  /-- The driver state, with the program counter `offset` in `running` (R11, R12). -/
  st : DriverState
  /-- The records emitted since reset, oldest first (R15). -/
  out : List Record
  /-- The input buffer (R26). -/
  buf : Memory
  /-- `LEN`, the number of bytes in the buffer (R6, R26). -/
  len : Nat
  /-- The debug flag, an input no rule reads (R16, R136). -/
  debug : Bool
  deriving DecidableEq, Repr

/-- The machine right after reset (R25, R140): `Running(0)`, nothing emitted. The inputs are the collaborator's and
not reset (R25); here they are the empty buffer and a clear debug flag (DESIGN CHOICE, log entry 2). -/
def State.reset : State where
  st := .running Config.startIndex
  out := []
  buf := []
  len := 0
  debug := false

end Sys2Proof.Machine
end

