-- ==== Sys2Proof/Machine/Ops.lean ====
section
/-! DEFINITION. The named operations over the state: reading and placing bytes of the buffer, the end of a step that
decodes an instruction, fault entry, and reset. -/

namespace Sys2Proof.Machine

/-! ### The buffer -/

/-- The byte a memory holds at an address. -/
def Memory.read : Memory → Nat → Byte
  | [], _ => Config.unlistedByte
  | (c, x) :: rest, a => if c = a then x else Memory.read rest a

/-- Place one byte, keeping the canonical form. The block never writes (R26): this is the collaborator placing the
buffer before a run (R141). -/
def Memory.write : Memory → Nat → Byte → Memory
  | [], a, b => if b = Config.unlistedByte then [] else [(a, b)]
  | (c, x) :: rest, a, b =>
    if a < c then
      if b = Config.unlistedByte then (c, x) :: rest else (a, b) :: (c, x) :: rest
    else if a = c then
      if b = Config.unlistedByte then rest else (a, b) :: rest
    else (c, x) :: Memory.write rest a b

/-- Place consecutive bytes from an address. -/
def Memory.writeBytes : Memory → Nat → List Byte → Memory
  | m, _, [] => m
  | m, a, b :: bs => Memory.writeBytes (m.write a b) (a + 1) bs

/-- `Fetch(i)`, the one read primitive (R27): `buf[i]` below `LEN`; none is where the block raises `TruncatedStream`. -/
def State.fetch (s : State) (i : Nat) : Option Byte :=
  if i < s.len then some (s.buf.read i) else none

/-- `n` consecutive bytes of the buffer from index `i`. -/
def State.bytesFrom (s : State) : Nat → Nat → List Byte
  | 0, _ => []
  | n + 1, i => s.buf.read i :: State.bytesFrom s n (i + 1)

/-- `remainingBytes` (R80): the stream from index `i` to the end of the buffer, empty at or past `LEN`. Its k-th element is
`Fetch(i + k)`. -/
def State.remaining (s : State) (i : Nat) : List Byte :=
  State.bytesFrom s (s.len - i) i

/-! ### The end of a step -/

/-- A step is a transition out of `Running`; `Done` and `Fault` have none (R100, R103, R104). -/
def whenRunning (s : State) (k : Nat → Host.Outcome State Fault Refusal) : Host.Outcome State Fault Refusal :=
  match s.st with
  | .running offset => k offset
  | .done => .fault .runDone
  | .fault _ _ _ => .fault .runFaulted

/-- `emit r` and advance (R101): the record is appended to `out` (R15) and `offset` grows by exactly its `encodedLength`
(R13, R106). -/
def complete (r : Record) (s : State) : Host.Outcome State Fault Refusal :=
  whenRunning s (fun offset =>
    .next { s with st := .running (offset + r.encodedLength), out := s.out ++ [r] })

/-- Fault entry, `raise K` (R130): `st <- Fault(K, offset, B1)` with `B1` the byte at `offset` (R14), and nothing else: no
record, no advance, no handler, no saved address. -/
def raise (k : ErrorKind) (s : State) : Host.Outcome State Fault Refusal :=
  whenRunning s (fun offset => .next { s with st := .fault k offset (s.buf.read offset) })

/-- The final step (R102): the buffer is used up, `st <- Done`; nothing is emitted. -/
def finish (s : State) : Host.Outcome State Fault Refusal :=
  whenRunning s (fun _ => .next { s with st := .done })

/-! ### Leaving a terminal state -/

/-- Reset (R140): `st <- Running(0); out <- empty`. There is no other return from a fault (R132). The collaborator applies
it, at any time; the inputs `buf`, `len` and `debug` are its own and stay. -/
def State.applyReset (s : State) : State :=
  { s with st := .running Config.startIndex, out := [] }

/-- A run's start (R141): the collaborator places the bytes, sets `LEN` to their number and applies reset. -/
def State.boot (bytes : List Byte) (debug : Bool) : State :=
  State.applyReset
    { st := .done, out := [], buf := Memory.writeBytes [] 0 bytes, len := bytes.length, debug := debug }

/-- Where the next instruction begins: the offset of a running block, else the entry point. -/
def State.nextIndex (s : State) : Nat :=
  match s.st with
  | .running offset => offset
  | .done => Config.startIndex
  | .fault _ _ _ => Config.startIndex

/-- The collaborator's placing of bytes at the next instruction's index, with `LEN` past them and the block running there
(log entry 5). -/
def State.placeNext (s : State) (bytes : List Byte) : State :=
  { s with
    st := .running s.nextIndex
    buf := s.buf.writeBytes s.nextIndex bytes
    len := max s.len (s.nextIndex + bytes.length) }

end Sys2Proof.Machine
end

