-- ==== Sys2Proof/Machine/Operands.lean ====
section
/-! DEFINITION. The operand forms: REGX, the register-file bit-field expander (R65 to R68), and AMR, the
addressing-mode resolver (R80 to R89). -/

namespace Sys2Proof.Machine

/-! ### REGX -/

/-- REGX (R65, R67): the designator of a width and a 3-bit field, total over both (R66). -/
def regx (w : Width) (f : RegField) : Operand := .register ⟨w, f⟩

/-- `ax`, the register of the accumulator forms for `w = 0` as well as `w = 1` (R67, R113, R114). -/
def accumulator : Operand := regx .word 0#3

/-- `RegId = w ∥ f = 8*w + f` (R17). -/
def regId (r : Reg) : BitVec 4 := r.w.bit ++ r.f

/-- The byte-width register names (R65), indexed by the field (R68). All but `cl` are the standard 8086 table
(G2; PRESUMED, log entry 12). -/
def byteNames : Vector String 8 := #v["al", "cl", "dl", "bl", "ah", "ch", "dh", "bh"]

/-- The word-width register names (R65), indexed by the field. All but `cx` and `bx` as for `byteNames`. -/
def wordNames : Vector String 8 := #v["ax", "cx", "dx", "bx", "sp", "bp", "si", "di"]

/-- `RegName(w, f)` (R65). -/
def regName (r : Reg) : String :=
  match r.w with
  | .byte => byteNames.get r.f.toFin
  | .word => wordNames.get r.f.toFin

/-! ### AMR -/

/-- The base-expression table `BASE(rm)` (R87). -/
def baseNames : Vector String 8 := #v["bx+si", "bx+di", "bp+si", "bp+di", "si", "di", "bp", "bx"]

/-- `BASE(rm)` (R87). -/
def baseText (rm : RegField) : String := baseNames.get rm.toFin

/-- The operand of a mod/rm part (R82 to R86): `w` selects the register table under `mod = 11` and nothing else. -/
def eaOperand (w : Width) (ea : Ea) : Operand :=
  match ea with
  | .register rm => regx w rm
  | .base rm => .memory rm none
  | .direct a => .directAddress a
  | .disp8 rm d => .memory rm (some (s8 d))
  | .disp16 rm d => .memory rm (some (s16 d))

/-- `resolve(mod, rm, w, p)` (R80), from the bytes that remain at `p`: the operand and `bytesConsumed`, or
`TruncatedStream`. A step computes the same in two parts: `readEa` when it decodes, `eaOperand` when it forms the
record. -/
def resolve (mod : BitVec 2) (rm : RegField) (w : Width) (rest : List Byte) : Except ErrorKind (Operand × Nat) := do
  let ea ← readEa (addressingMode mod) rm rest
  .ok (eaOperand w ea, ea.bytesConsumed)

/-- AMR at buffer index `p` (R80). -/
def State.resolveAt (s : State) (mod : BitVec 2) (rm : RegField) (w : Width) (p : Nat) :
    Except ErrorKind (Operand × Nat) :=
  resolve mod rm w (s.remaining p)

/-! ### Immediates and accumulator addresses -/

/-- `Immediate(v)` of a data byte: unsigned, not sign-extended (R45, D9). -/
def immediate8 (v : Byte) : Operand := .immediate (v.zeroExtend 16)

/-- `Immediate(v)` of a data word (R45). -/
def immediate16 (v : Word16) : Operand := .immediate v

/-- The 1-byte accumulator address, zero-extended (R47, D10). -/
def address8 (a : Byte) : Operand := .directAddress (a.zeroExtend 16)

/-- The 2-byte accumulator address (R47). -/
def address16 (a : Word16) : Operand := .directAddress a

end Sys2Proof.Machine
end

