-- ==== Sys2Proof/Machine/Flags.lean ====
section
/-! DEFINITION. The block has no flag and no condition code (R20): "the block's only status is `st`". What the consumer
reads of it at the end of a run (R145, R147) stands here. -/

namespace Sys2Proof.Machine

/-- The 3-bit code of an error kind (R120, D20). -/
def errorCode : ErrorKind → BitVec 3
  | .unrecognizedOpcode => 1#3
  | .ambiguousOpcode => 2#3
  | .truncatedStream => 3#3
  | .invalidWidth => 4#3
  | .malformedField => 5#3
  | .unsupportedVariant => 6#3

/-- The code the status shows: 0 when there is no fault (R120). -/
def DriverState.code : DriverState → BitVec 3
  | .running _ => 0#3
  | .done => 0#3
  | .fault k _ _ => errorCode k

/-- `Done` and `Fault` are terminal (R103, R104). -/
def DriverState.terminal : DriverState → Bool
  | .running _ => false
  | .done => true
  | .fault _ _ _ => true

/-- A run is successful exactly when it ends in `Done` (R145). -/
def DriverState.successful : DriverState → Bool
  | .running _ => false
  | .done => true
  | .fault _ _ _ => false

end Sys2Proof.Machine
end

