-- ==== Sys2Proof/Machine/Format.lean ====
section
/-! DEFINITION. FMT, the instruction formatter (R90 to R94), and the text that is a function of a record (R52 to R55). -/

namespace Sys2Proof.Machine

/-- The record of a form with a direction bit (R90, R91): `d = 1` puts the `reg` operand first, `d = 0` the other. -/
def format (m : Mnemonic) (d : Direction) (regOperand otherOperand : Operand) (n : Nat) : Record :=
  match d with
  | .regIsDestination => ⟨m, regOperand, otherOperand, n⟩
  | .regIsSource => ⟨m, otherOperand, regOperand, n⟩

/-- The record of a form without a direction bit: destination first, as the variant fixes it (R92). -/
def formatFixed (m : Mnemonic) (destination source : Operand) (n : Nat) : Record :=
  ⟨m, destination, source, n⟩

/-- `dec(v)` (R9): the shortest decimal numeral, with a leading `-` when negative. -/
def dec (v : Int) : String := toString v

/-- The mnemonic's text (R52, R94). -/
def mnemonicText : Mnemonic → String
  | .mov => "mov"

/-- `Text` of an operand (R53; spacing and number base are the spec's own choice, D11, D12). -/
def operandText : Operand → String
  | .register r => regName r
  | .immediate v => dec v.toNat
  | .directAddress a => "[" ++ dec a.toNat ++ "]"
  | .memory rm none => "[" ++ baseText rm ++ "]"
  | .memory rm (some n) => "[" ++ baseText rm ++ " + " ++ dec n ++ "]"

/-- `Line(r)` (R52). -/
def line (r : Record) : String :=
  mnemonicText r.mnemonic ++ " " ++ operandText r.destination ++ ", " ++ operandText r.source

/-- The header line (R54). -/
def header : String := "bits 16"

/-- `Listing(out)` (R54): the header, present for every run, then one line per record. -/
def listing (out : List Record) : List String := header :: out.map line

end Sys2Proof.Machine
end

