-- ==== Sys2Proof/Machine/Accumulator.lean ====
section
/-! DEFINITION. The meanings of `memToAcc` (R113) and `accToMem` (R114). `w` selects the width of the address; the register
is `ax` for both (C5, D22). -/

namespace Sys2Proof.Machine

/-- `mov ax, [addr8]`: `w = 0`, length 2 (R113). -/
def execMovAxAddr8 (addr : Byte) (s : State) : Host.Outcome State Fault Refusal :=
  complete (formatFixed .mov accumulator (address8 addr) 2) s

/-- `mov ax, [addr16]`: `w = 1`, length 3 (R113). -/
def execMovAxAddr16 (addr : Word16) (s : State) : Host.Outcome State Fault Refusal :=
  complete (formatFixed .mov accumulator (address16 addr) 3) s

/-- `mov [addr8], ax`: `w = 0`, length 2 (R114). -/
def execMovAddr8Ax (addr : Byte) (s : State) : Host.Outcome State Fault Refusal :=
  complete (formatFixed .mov (address8 addr) accumulator 2) s

/-- `mov [addr16], ax`: `w = 1`, length 3 (R114). -/
def execMovAddr16Ax (addr : Word16) (s : State) : Host.Outcome State Fault Refusal :=
  complete (formatFixed .mov (address16 addr) accumulator 3) s

end Sys2Proof.Machine
end

