-- ==== Sys2Proof/Machine/Immediate.lean ====
section
/-! DEFINITION. The meanings of `immediateToReg` (R112). -/

namespace Sys2Proof.Machine

/-- `mov reg8, imm8`: `w = 0`, one data byte, length 2 (R112). -/
def execMovReg8Imm8 (reg : RegField) (imm : Byte) (s : State) : Host.Outcome State Fault Refusal :=
  complete (formatFixed .mov (regx .byte reg) (immediate8 imm) 2) s

/-- `mov reg16, imm16`: `w = 1`, two data bytes, length 3 (R112). -/
def execMovReg16Imm16 (reg : RegField) (imm : Word16) (s : State) : Host.Outcome State Fault Refusal :=
  complete (formatFixed .mov (regx .word reg) (immediate16 imm) 3) s

end Sys2Proof.Machine
end

