-- ==== Sys2Proof/Machine/RegMem.lean ====
section
/-! DEFINITION. The meanings of `regToFromReg` (R110, R111). -/

namespace Sys2Proof.Machine

/-- `mov r/m, reg`, `d = 0` (R110). -/
def execMovRmReg (w : Width) (reg : RegField) (ea : Ea) (s : State) : Host.Outcome State Fault Refusal :=
  complete (format .mov .regIsSource (regx w reg) (eaOperand w ea) (2 + ea.bytesConsumed)) s

/-- `mov reg, r/m`, `d = 1` (R111). -/
def execMovRegRm (w : Width) (reg : RegField) (ea : Ea) (s : State) : Host.Outcome State Fault Refusal :=
  complete (format .mov .regIsDestination (regx w reg) (eaOperand w ea) (2 + ea.bytesConsumed)) s

end Sys2Proof.Machine
end

