-- ==== Sys2Proof/Machine/Unsupported.lean ====
section
/-! DEFINITION. The meanings of the recognised but unsupported variants (R115 to R117): each raises `UnsupportedVariant` at
once, before any further byte is fetched (D14). The fault it takes is a next state (R130). -/

namespace Sys2Proof.Machine

/-- `immediateToRegMemory` (R115): `B1[0]`, the argument, is not read. -/
def execImmediateToRegMemory (_x : BitVec 1) (s : State) : Host.Outcome State Fault Refusal :=
  raise .unsupportedVariant s

/-- `regToSegment` (R116). -/
def execRegToSegment (s : State) : Host.Outcome State Fault Refusal :=
  raise .unsupportedVariant s

/-- `segmentToReg` (R117). -/
def execSegmentToReg (s : State) : Host.Outcome State Fault Refusal :=
  raise .unsupportedVariant s

end Sys2Proof.Machine
end

