-- ==== Sys2Proof/Machine/Dispatch.lean ====
section
/-! DEFINITION. One arm per instruction (R118: "the seven variants above are every instruction the block knows"). -/

namespace Sys2Proof.Machine

def exec (i : Instr) (s : State) : Host.Outcome State Fault Refusal :=
  match i with
  | .movRmReg w reg ea => Sys2Proof.Machine.execMovRmReg w reg ea s
  | .movRegRm w reg ea => Sys2Proof.Machine.execMovRegRm w reg ea s
  | .movReg8Imm8 reg imm => Sys2Proof.Machine.execMovReg8Imm8 reg imm s
  | .movReg16Imm16 reg imm => Sys2Proof.Machine.execMovReg16Imm16 reg imm s
  | .movAxAddr8 addr => Sys2Proof.Machine.execMovAxAddr8 addr s
  | .movAxAddr16 addr => Sys2Proof.Machine.execMovAxAddr16 addr s
  | .movAddr8Ax addr => Sys2Proof.Machine.execMovAddr8Ax addr s
  | .movAddr16Ax addr => Sys2Proof.Machine.execMovAddr16Ax addr s
  | .immediateToRegMemory x => Sys2Proof.Machine.execImmediateToRegMemory x s
  | .regToSegment => Sys2Proof.Machine.execRegToSegment s
  | .segmentToReg => Sys2Proof.Machine.execSegmentToReg s

end Sys2Proof.Machine
end

