-- ==== Sys2Proof/Machine/Step.lean ====
section
/-! DEFINITION. DRV, the decode driver (R100 to R109): one step decodes one instruction, or ends the run, or faults. -/

namespace Sys2Proof.Machine

/-- The step function (R101, R102). In `Running(offset)` with a byte left it classifies and decodes the instruction there
and runs its meaning, or enters `Fault` with the error raised; with no byte left it goes to `Done`. -/
def step (s : State) : Host.Outcome State Fault Refusal :=
  whenRunning s (fun offset =>
    if offset < s.len then
      match decode (s.remaining offset) with
      | .ok i => exec i s
      | .error k => raise k s
    else finish s)

/-- `s` with the instruction of a table word placed where the next step fetches, the block running there and `LEN` past
it (log entry 5). -/
def State.withFetchWord (s : State) (nbits w : Nat) : State :=
  s.placeNext (tableBytes nbits w)

end Sys2Proof.Machine
end

