-- ==== Sys2Proof/Safety.lean ====
section
/-! DEFINITION. What counts as a good run, in the terms the statements use: a run and its result (R145), the partition of
the buffer by the emitted records (R33, R105, R106), the records the block can emit (R24), and the invariant of a
run. -/

namespace Sys2Proof.Machine

/-- The iteration of the step function under fuel, ending at the first state that has no step (R109, R145). -/
def run : Nat → State → State
  | 0, s => s
  | n + 1, s =>
    match step s with
    | .next t => run n t
    | .fault _ => s
    | .refused _ => s

/-- Enough fuel for every run over a buffer of `LEN` bytes: `floor(LEN / 2) + 1` (R107, R109). -/
def runFuel (s : State) : Nat := s.len / 2 + 1

/-- The state at the end of the run that begins with a reset of `s` (R145). -/
def finalState (s : State) : State := run (runFuel s) s.applyReset

/-- The result of a run, the pair `(out, final)` (R145). -/
def result (s : State) : List Record × DriverState := ((finalState s).out, (finalState s).st)

/-- The inputs of `s` with the block running at index `i` and nothing emitted. -/
def State.startAt (s : State) (i : Nat) : State :=
  { s with st := .running i, out := [] }

/-- With the inputs of `s`, the step at index `i` emits exactly `r` and advances by its `encodedLength`. -/
def emitsAt (s : State) (i : Nat) (r : Record) : Prop :=
  step (s.startAt i) = .next { s with st := .running (i + r.encodedLength), out := [r] }

/-- With the inputs of `s`, the step at index `i` raises `k`. -/
def raisesAt (s : State) (i : Nat) (k : ErrorKind) : Prop :=
  step (s.startAt i) = .next { s with st := .fault k i (s.buf.read i), out := [] }

/-- In every running state the meaning of `i` is to emit `r` and advance by its `encodedLength`. -/
def emits (i : Instr) (r : Record) : Prop :=
  ∀ (s : State) (o : Nat), s.st = .running o →
    exec i s = .next { s with st := .running (o + r.encodedLength), out := s.out ++ [r] }

/-- The records `rs` are what successive steps emit from index `i` to index `e`, each beginning where the one before it
ended: the byte ranges partition `[i, e)` (R33, R105). -/
def tiles (s : State) : Nat → List Record → Nat → Prop
  | i, [], e => i = e
  | i, r :: rs, e => emitsAt s i r ∧ tiles s (i + r.encodedLength) rs e

/-- The index at which record number `k` of a list begins, the list beginning at 0. -/
def startOf (rs : List Record) (k : Nat) : Nat := ((rs.take k).map Record.encodedLength).sum

/-- The number of bytes of the instruction whose first two bytes are `b1`, `b2`, for a first byte with a decode path; none
for the others (R40, R48). -/
def requiredLength (b1 b2 : Byte) : Option Nat :=
  if 0x88 ≤ b1.toNat ∧ b1.toNat ≤ 0x8B then
    if b2.toNat / 64 = 3 then some 2
    else if b2.toNat / 64 = 0 then (if b2.toNat % 8 = 6 then some 4 else some 2)
    else if b2.toNat / 64 = 1 then some 3
    else some 4
  else if 0xB0 ≤ b1.toNat ∧ b1.toNat ≤ 0xB7 then some 2
  else if 0xB8 ≤ b1.toNat ∧ b1.toNat ≤ 0xBF then some 3
  else if b1.toNat = 0xA0 ∨ b1.toNat = 0xA2 then some 2
  else if b1.toNat = 0xA1 ∨ b1.toNat = 0xA3 then some 3
  else none

/-- The opcode bytes of the variants recognised and refused (R126). -/
def unsupportedByte (b1 : Byte) : Bool :=
  b1 == 0x8C#8 || b1 == 0x8E#8 || b1 == 0xC6#8 || b1 == 0xC7#8

/-- The buffer is written in its canonical form, and nothing is placed at or past `LEN` (R26, R34). -/
abbrev bufOk (s : State) : Prop := s.buf.wf ∧ ∀ c ∈ s.buf, c.1 < s.len

/-- The precondition of every run on the width `OFFSET_W` of the offset register (R6): `LEN < 2^W`. -/
abbrev fitsOffset (W : Nat) (s : State) : Prop := s.len < 2 ^ W

/-- The error kinds an input buffer can reach (R120). -/
def reachableKind : ErrorKind → Bool
  | .unrecognizedOpcode => true
  | .truncatedStream => true
  | .unsupportedVariant => true
  | .ambiguousOpcode => false
  | .invalidWidth => false
  | .malformedField => false

/-- How far a run has come: the records emitted so far partition the buffer up to the offset, up to `LEN` when `Done`, up
to the faulting instruction in `Fault` (R12, R14, R33). -/
def progressOk (s : State) : Prop :=
  match s.st with
  | .running offset => offset ≤ s.len ∧ tiles s 0 s.out offset
  | .done => tiles s 0 s.out s.len
  | .fault k start byte =>
    start < s.len ∧ byte = s.buf.read start ∧ reachableKind k = true ∧ raisesAt s start k ∧ tiles s 0 s.out start

/-- The invariant of a run. -/
def Inv (s : State) : Prop := bufOk s ∧ progressOk s

/-- The lengths a record with a `Register` operand `r` and another operand can have (R40, R45 to R47). -/
def pairOk (r : Reg) (isDestination : Bool) (other : Operand) (n : Nat) : Bool :=
  match other with
  | .register q => q.w == r.w && n == 2
  | .memory rm none => rm != 6#3 && n == 2
  | .memory _ (some d) =>
    (n == 3 && decide (-128 ≤ d) && decide (d ≤ 127)) || (n == 4 && decide (-32768 ≤ d) && decide (d ≤ 32767))
  | .directAddress a =>
    n == 4 || (decide (accumulator = .register r) && ((n == 2 && decide (a.toNat < 256)) || n == 3))
  | .immediate v =>
    isDestination &&
      (match r.w with
       | .byte => n == 2 && decide (v.toNat < 256)
       | .word => n == 3)

/-- The records the block can emit: a designator on one side at least, and a second operand that fits it (R24). -/
def Record.possible (r : Record) : Bool :=
  match r.destination, r.source with
  | .register d, other => pairOk d true other r.encodedLength
  | other, .register q => pairOk q false other r.encodedLength
  | .memory _ _, .memory _ _ => false
  | .memory _ _, .directAddress _ => false
  | .memory _ _, .immediate _ => false
  | .directAddress _, .memory _ _ => false
  | .directAddress _, .directAddress _ => false
  | .directAddress _, .immediate _ => false
  | .immediate _, .memory _ _ => false
  | .immediate _, .directAddress _ => false
  | .immediate _, .immediate _ => false

end Sys2Proof.Machine
end

