-- ==== Sys2Proof/Certificates/Slice0/Obligations.lean ====
section
/-! DEFINITION. The statements for the provers, from the rules of spec/. Where a docstring names a decision D<n> or a
passage G<n>, the statement rests on a choice the spec marks as its own. -/

open Sys2Proof Sys2Proof.Machine

/-! ### Encoding -/

/-- Decode and encode agree: every well-formed instruction, with every operand its encoding admits, is decoded from its
bytes whatever follows them. The encodings are R41 to R47's; five opcode patterns are G1's. -/
def Obligations.DecodeInvertsEncode : Prop :=
  ∀ (i : Instr) (rest : List Byte), i.wf = true → decode (encode i ++ rest) = .ok i

/-- The other direction: what the decoder reads is well formed and its encoding is the head of the stream, so each byte
sequence has one meaning and no byte of the instruction is dropped. It is about instruction terms, which keep `d`, `mod`
and the widths of fields; of records, which do not keep them, it says nothing and would be false. The encodings are those
of 30_encoding.md sections 1 and 2; five opcode patterns are G1's (log entry 12, PRESUMED). -/
def Obligations.EncodeInvertsDecode : Prop :=
  ∀ (bs : List Byte) (i : Instr), decode bs = .ok i →
    i.wf = true ∧ encode i = bs.take (encode i).length

/-- One word of each family, written out from the formats of 30_encoding.md section 1, decodes to the instruction it stands
for. The opcode bits of the words `A1`, `A2`, `C7`, `8E` and `8C` are G1's (log entry 12, PRESUMED), not the source's. -/
def Obligations.WrittenWordsDecode : Prop :=
  decode [0b10001001#8, 0b11011001#8] = .ok (.movRmReg .word 3#3 (.register 1#3)) ∧
  decode [0b10001010#8, 0b01000110#8, 0b11111100#8] = .ok (.movRegRm .byte 0#3 (.disp8 6#3 0xFC#8)) ∧
  decode [0b10110001#8, 0b00001100#8] = .ok (.movReg8Imm8 1#3 12#8) ∧
  decode [0b10111010#8, 0b00110100#8, 0b00010010#8] = .ok (.movReg16Imm16 2#3 0x1234#16) ∧
  decode [0b10100001#8, 0b11111011#8, 0b00001001#8] = .ok (.movAxAddr16 2555#16) ∧
  decode [0b10100010#8, 0b00001111#8] = .ok (.movAddr8Ax 15#8) ∧
  decode [0b11000111#8] = .ok (.immediateToRegMemory 1#1) ∧
  decode [0b10001110#8] = .ok .regToSegment ∧
  decode [0b10001100#8] = .ok .segmentToReg

/-- BFX (R60): `Field(b, s, n)` for `n` of 1, 2, 3 inside the byte is the `n` bits from D0's index `s`, most significant
first. -/
def Obligations.FieldReadsBitsFromTheTop : Prop :=
  ∀ (b : Byte) (s n : Nat), 1 ≤ n → n ≤ 3 → s + n ≤ 8 →
    ∃ v : BitVec n, field b s n = .ok v ∧ v.toNat = b.toNat / 2 ^ (8 - s - n) % 2 ^ n ∧
      ∀ k, k < n → v.getMsbD k = b.getMsbD (s + k)

/-- BFX: an index outside 0..7, the first or the last one read, is `MalformedField` (40_bitfield_and_register_expander.md;
that the last index counts is the spec's own inference). -/
def Obligations.FieldOutsideTheByteIsMalformed : Prop :=
  ∀ (b : Byte) (s : Int) (n : Nat), 1 ≤ n → n ≤ 3 → (s < 0 ∨ 7 < s ∨ 7 < s + n - 1) →
    field b s n = .error .malformedField

/-- `U16(lo, hi) = 256*hi + lo` (R62). -/
def Obligations.WordsAreLowByteFirst : Prop :=
  ∀ lo hi : Byte, (u16 lo hi).toNat = 256 * hi.toNat + lo.toNat

/-- The signed readings of a byte and of a word are two's complement (G4, the spec's passage from general knowledge). -/
def Obligations.SignedReadingsAreTwosComplement : Prop :=
  (∀ b : Byte, s8 b = b.toInt) ∧ (∀ v : Word16, s16 v = v.toInt)

/-- CLS, match (R72): a pattern of the table matches when the first `L` bits of the byte, most significant first, are its
bits; equivalently by mask and match. -/
def Obligations.PatternsMatchLeadingBits : Prop :=
  ∀ (b1 : Byte) (p : Pattern), p ∈ patterns →
    (p.fits b1 = true ↔ ∀ k, k < p.length → b1.getMsbD k = p.bits.testBit (p.length - 1 - k)) ∧
    (p.fits b1 = true ↔
      b1 &&& BitVec.ofNat 8 (256 - 2 ^ (8 - p.length)) = BitVec.ofNat 8 (p.bits * 2 ^ (8 - p.length)))

/-- CLS, policy (R73), over any table: with `M` the triples that match, none is `UnrecognizedOpcode`, more than one is
`AmbiguousOpcode` wherever they stand, and exactly one gives its variant. That the order of the table has no effect (the clause on permutations) is the spec's own
inference from the policy. -/
def Obligations.ClassifierPolicy : Prop :=
  ∀ (table : List Pattern) (b1 : Byte),
    ((∀ p ∈ table, p.fits b1 = false) → classifyWith table b1 = .error .unrecognizedOpcode) ∧
    (1 < (table.filter (fun p => p.fits b1)).length → classifyWith table b1 = .error .ambiguousOpcode) ∧
    (∀ before p after, table = before ++ p :: after → p.fits b1 = true →
      (∀ q ∈ before ++ after, q.fits b1 = false) → classifyWith table b1 = .ok p.variant) ∧
    (∀ table', table.Perm table' → classifyWith table' b1 = classifyWith table b1) ∧
    classify b1 = classifyWith patterns b1

/-- CLS, the result for every byte (the map of 30_encoding.md section 3; the rows other than 88..8B and B0..BF are G1's). -/
def Obligations.OpcodeMap : Prop :=
  ∀ b1 : Byte, classify b1 =
    if 0x88 ≤ b1.toNat ∧ b1.toNat ≤ 0x8B then .ok .regToFromReg
    else if b1.toNat = 0x8C then .ok .segmentToReg
    else if b1.toNat = 0x8E then .ok .regToSegment
    else if 0xA0 ≤ b1.toNat ∧ b1.toNat ≤ 0xA1 then .ok .memToAcc
    else if 0xA2 ≤ b1.toNat ∧ b1.toNat ≤ 0xA3 then .ok .accToMem
    else if 0xB0 ≤ b1.toNat ∧ b1.toNat ≤ 0xBF then .ok .immediateToReg
    else if 0xC6 ≤ b1.toNat ∧ b1.toNat ≤ 0xC7 then .ok .immediateToRegMemory
    else .error .unrecognizedOpcode

/-- CLS: the table is prefix-free, so no byte is ambiguous (41_opcode_classifier.md; the spec's own inference over a table
that holds G1's patterns). -/
def Obligations.PatternTableIsPrefixFree : Prop :=
  (∀ p ∈ patterns, ∀ q ∈ patterns, p ≠ q → p.length ≤ q.length → q.bits / 2 ^ (q.length - p.length) ≠ p.bits) ∧
  (∀ b1 : Byte, classify b1 ≠ .error .ambiguousOpcode)

/-- REGX: the 16 names, and `RegId = 8*w + f`, which tells all 16 apart (names: G2; code: D7). -/
def Obligations.RegisterNamesAndCodes : Prop :=
  ((List.range 8).map (fun f => regName ⟨.byte, BitVec.ofNat 3 f⟩) = ["al", "cl", "dl", "bl", "ah", "ch", "dh", "bh"]) ∧
  ((List.range 8).map (fun f => regName ⟨.word, BitVec.ofNat 3 f⟩) = ["ax", "cx", "dx", "bx", "sp", "bp", "si", "di"]) ∧
  (∀ (w : Width) (f : RegField), (regId ⟨w, f⟩).toNat = 8 * w.bit.toNat + f.toNat)

/-- REGX on any width input: 0 and 1 are the two widths, every other value is `InvalidWidth` (40_bitfield_and_register_expander.md;
that hardware never raises it is the spec's own inference). -/
def Obligations.WidthContract : Prop :=
  width 0 = .ok .byte ∧ width 1 = .ok .word ∧ (∀ n, 2 ≤ n → width n = .error .invalidWidth) ∧
  (∀ b : BitVec 1, ∃ w, width b.toNat = .ok w ∧ w.bit = b)

/-! ### The addressing-mode resolver -/

/-- AMR (R81, R82, R83): the four modes; `mod = 11` is a register of the instruction's width and `mod = 00`, `rm ≠ 110` a
base expression without displacement; neither reads a byte. -/
def Obligations.ResolveWithoutBytes : Prop :=
  (addressingMode 0#2 = .memoryNoDisplacement ∧ addressingMode 1#2 = .memoryDisplacement8 ∧
    addressingMode 2#2 = .memoryDisplacement16 ∧ addressingMode 3#2 = .registerMode) ∧
  (∀ (s : State) (rm : RegField) (w : Width) (p : Nat), s.resolveAt 3#2 rm w p = .ok (.register ⟨w, rm⟩, 0)) ∧
  (∀ (s : State) (rm : RegField) (w : Width) (p : Nat), rm ≠ 6#3 → s.resolveAt 0#2 rm w p = .ok (.memory rm none, 0))

/-- AMR (R84): under `mod = 00`, `rm = 110` the next two bytes, low byte first, are a direct address with no base register;
`TruncatedStream` if either is missing. -/
def Obligations.ResolveDirectAddress : Prop :=
  ∀ (s : State) (w : Width) (p : Nat),
    (∀ lo hi : Byte, s.fetch p = some lo → s.fetch (p + 1) = some hi →
      ∃ a : Word16, a.toNat = 256 * hi.toNat + lo.toNat ∧ s.resolveAt 0#2 6#3 w p = .ok (.directAddress a, 2)) ∧
    (s.fetch p = none ∨ s.fetch (p + 1) = none → s.resolveAt 0#2 6#3 w p = .error .truncatedStream)

/-- AMR (R85): under `mod = 01` every `rm` is its base expression with the signed 8-bit displacement of the next byte, kept
also when it is 0; `TruncatedStream` if the byte is missing. That signed means two's complement, the formula written out
here, is G4's (log entry 12, PRESUMED). -/
def Obligations.ResolveDisplacementOfOneByte : Prop :=
  ∀ (s : State) (rm : RegField) (w : Width) (p : Nat),
    (∀ b : Byte, s.fetch p = some b →
      s.resolveAt 1#2 rm w p =
        .ok (.memory rm (some (if 128 ≤ b.toNat then (b.toNat : Int) - 256 else b.toNat)), 1)) ∧
    (s.fetch p = none → s.resolveAt 1#2 rm w p = .error .truncatedStream)

/-- AMR (R86): under `mod = 10` every `rm` is its base expression with the signed 16-bit displacement of the next two bytes,
low byte first; `TruncatedStream` if either is missing. That signed means two's complement, the formula written out here,
is G4's (log entry 12, PRESUMED). -/
def Obligations.ResolveDisplacementOfTwoBytes : Prop :=
  ∀ (s : State) (rm : RegField) (w : Width) (p : Nat),
    (∀ lo hi : Byte, s.fetch p = some lo → s.fetch (p + 1) = some hi →
      s.resolveAt 2#2 rm w p =
        .ok (.memory rm (some (if 32768 ≤ 256 * hi.toNat + lo.toNat then ((256 * hi.toNat + lo.toNat : Nat) : Int) - 65536
          else ((256 * hi.toNat + lo.toNat : Nat) : Int))), 2)) ∧
    (s.fetch p = none ∨ s.fetch (p + 1) = none → s.resolveAt 2#2 rm w p = .error .truncatedStream)

/-- The displacement (R46): signed, in range, absent exactly under `mod = 00`; an 8-bit one is sign-extended to the integer a
16-bit one of equal value gives, so only `encodedLength` tells them apart. The signed values and their ranges are the two's
complement reading, G4's (log entry 12, PRESUMED). -/
def Obligations.DisplacementIsASignedInteger : Prop :=
  ∀ (w : Width) (rm : RegField),
    eaOperand w (.base rm) = .memory rm none ∧
    (∀ d : Byte, ∃ n : Int, -128 ≤ n ∧ n ≤ 127 ∧ n = d.toInt ∧ eaOperand w (.disp8 rm d) = .memory rm (some n) ∧
      eaOperand w (.disp16 rm (d.signExtend 16)) = .memory rm (some n)) ∧
    (∀ lo hi : Byte, ∃ n : Int, -32768 ≤ n ∧ n ≤ 32767 ∧ n = (BitVec.ofNat 16 (256 * hi.toNat + lo.toNat)).toInt ∧
      eaOperand w (.disp16 rm (u16 lo hi)) = .memory rm (some n)) ∧
    (∀ d, (Ea.disp8 rm d).bytesConsumed = 1) ∧ (∀ d, (Ea.disp16 rm d).bytesConsumed = 2)

/-! ### The formatter -/

/-- FMT (R91): the direction bit orders the operands. -/
def Obligations.DirectionOrdersOperands : Prop :=
  ∀ (m : Mnemonic) (a b : Operand) (n : Nat),
    direction 1#1 = .regIsDestination ∧ direction 0#1 = .regIsSource ∧
    (format m .regIsDestination a b n).destination = a ∧ (format m .regIsDestination a b n).source = b ∧
    (format m .regIsSource a b n).destination = b ∧ (format m .regIsSource a b n).source = a

/-- The text of D0's two byte examples (R56), of a direct address, and the base table's texts (R87, 42_addressing_mode_resolver.md),
with a displacement of 0 and a negative one (30_encoding.md section 5; base, spacing and sign form are D11, D12; that the
word register of code 0 is `ax` is G2's, log entry 12, PRESUMED). Every other value is OperandAndLineText's. -/
def Obligations.WorkedText : Prop :=
  line ⟨.mov, .register ⟨.word, 1#3⟩, .register ⟨.word, 3#3⟩, 2⟩ = "mov cx, bx" ∧
  line ⟨.mov, .register ⟨.byte, 1#3⟩, .immediate 12#16, 2⟩ = "mov cl, 12" ∧
  line ⟨.mov, .register ⟨.word, 0#3⟩, .directAddress 12345#16, 4⟩ = "mov ax, [12345]" ∧
  (List.range 8).map (fun f => operandText (.memory (BitVec.ofNat 3 f) none)) =
    ["[bx+si]", "[bx+di]", "[bp+si]", "[bp+di]", "[si]", "[di]", "[bp]", "[bx]"] ∧
  operandText (.memory 6#3 (some 0)) = "[bp + 0]" ∧ operandText (.memory 4#3 (some (-2))) = "[si + -2]"

/-- `dec(v)` (00_scope.md section 4) is the shortest decimal numeral: digits only, its value is `v`, no leading zero unless
it is `0`, `dec(0)` is the one digit `0`, and a negative number is `-` before the numeral of its opposite. -/
def Obligations.NumeralsAreShortestDecimal : Prop :=
  dec 0 = "0" ∧ ∀ n : Nat,
    (∀ c ∈ (dec n).toList, '0' ≤ c ∧ c ≤ '9') ∧
    (dec n).toList.foldl (fun a c => 10 * a + (c.toNat - '0'.toNat)) 0 = n ∧
    ((dec n).toList.head? = some '0' → n = 0 ∧ dec n = "0") ∧
    (0 < n → dec (-(n : Int)) = "-" ++ dec n)

/-! ### The meanings -/

/-- `regToFromReg`, both directions: in every running state, for every width, register field and mod/rm part, the meaning
completes: it emits the record of the two operands and advances by 2 plus the bytes AMR consumed, and changes nothing
else (45_mov_variants.md section 1). -/
def Obligations.RegisterMemoryMovesComplete : Prop :=
  ∀ (w : Width) (reg : RegField) (ea : Ea) (s : State) (o : Nat), s.st = .running o →
    (exec (.movRmReg w reg ea) s = .next { s with
      st := .running (o + (2 + ea.bytesConsumed))
      out := s.out ++ [⟨.mov, eaOperand w ea, .register ⟨w, reg⟩, 2 + ea.bytesConsumed⟩] }) ∧
    (exec (.movRegRm w reg ea) s = .next { s with
      st := .running (o + (2 + ea.bytesConsumed))
      out := s.out ++ [⟨.mov, .register ⟨w, reg⟩, eaOperand w ea, 2 + ea.bytesConsumed⟩] })

/-- `immediateToReg`, both widths: the meaning completes with the register and the unsigned immediate (45_mov_variants.md
section 2; unsigned is D9). -/
def Obligations.ImmediateMovesComplete : Prop :=
  ∀ (reg : RegField) (s : State) (o : Nat), s.st = .running o →
    (∀ v : Byte, ∃ u : Word16, u.toNat = v.toNat ∧ exec (.movReg8Imm8 reg v) s = .next { s with
      st := .running (o + 2), out := s.out ++ [⟨.mov, .register ⟨.byte, reg⟩, .immediate u, 2⟩] }) ∧
    (∀ v : Word16, exec (.movReg16Imm16 reg v) s = .next { s with
      st := .running (o + 3), out := s.out ++ [⟨.mov, .register ⟨.word, reg⟩, .immediate v, 3⟩] })

/-- `memToAcc` and `accToMem`, both address widths: the meaning completes with `ax` = `Register(1, 0)` whatever the width
and the zero-extended or 16-bit address (45_mov_variants.md section 3; zero extension is D10, `ax` D22). -/
def Obligations.AccumulatorMovesComplete : Prop :=
  ∀ (s : State) (o : Nat), s.st = .running o →
    (∀ a : Byte, ∃ u : Word16, u.toNat = a.toNat ∧
      (exec (.movAxAddr8 a) s = .next { s with
        st := .running (o + 2), out := s.out ++ [⟨.mov, .register ⟨.word, 0#3⟩, .directAddress u, 2⟩] }) ∧
      (exec (.movAddr8Ax a) s = .next { s with
        st := .running (o + 2), out := s.out ++ [⟨.mov, .directAddress u, .register ⟨.word, 0#3⟩, 2⟩] })) ∧
    (∀ a : Word16,
      (exec (.movAxAddr16 a) s = .next { s with
        st := .running (o + 3), out := s.out ++ [⟨.mov, .register ⟨.word, 0#3⟩, .directAddress a, 3⟩] }) ∧
      (exec (.movAddr16Ax a) s = .next { s with
        st := .running (o + 3), out := s.out ++ [⟨.mov, .directAddress a, .register ⟨.word, 0#3⟩, 3⟩] }))

/-- The three unsupported variants: the meaning enters `Fault(UnsupportedVariant, offset, B1)` and changes nothing else
(45_mov_variants.md section 4, 60_exceptions.md section 3; the fault record is D3's and D13's). -/
def Obligations.UnsupportedVariantsEnterFault : Prop :=
  ∀ (x : BitVec 1) (s : State) (o : Nat) (b1 : Byte), s.st = .running o → s.fetch o = some b1 →
    exec (.immediateToRegMemory x) s = .next { s with st := .fault .unsupportedVariant o b1 } ∧
    exec .regToSegment s = .next { s with st := .fault .unsupportedVariant o b1 } ∧
    exec .segmentToReg s = .next { s with st := .fault .unsupportedVariant o b1 }

/-- The frame of every instruction: the inputs and every byte of the buffer are unchanged, and `out` keeps what it held,
growing by at most one record; a meaning never refuses. -/
def Obligations.InstructionFrame : Prop :=
  ∀ (i : Instr) (s : State),
    (∀ t, exec i s = .next t →
      t.buf = s.buf ∧ t.len = s.len ∧ t.debug = s.debug ∧ (∀ a, t.fetch a = s.fetch a) ∧
      ((i.encodedLength = none ∧ t.out = s.out) ∨ (∃ r, i.encodedLength = some r.encodedLength ∧ t.out = s.out ++ [r]))) ∧
    (∀ q, exec i s ≠ .refused q)

/-! ### The driver -/

/-- A step runs the decoded instruction (44_decode_driver.md): in `Running(o)` with a byte left, step is `exec` of the
instruction the remaining bytes decode to, or the entry of the error they raise; with none left it is the final step. -/
def Obligations.StepRunsTheDecodedInstruction : Prop :=
  ∀ (s : State) (o : Nat), s.st = .running o →
    (o < s.len → ∀ i, decode (s.remaining o) = .ok i → step s = exec i s) ∧
    (o < s.len → ∀ k, decode (s.remaining o) = .error k → step s = raise k s) ∧
    (s.len ≤ o → step s = finish s)

/-- The states (R100): the initial state is `Running(0)`; a step is a transition out of `Running`, and `Done` and `Fault`
have none. That the model answers a host fault there, runDone or runFaulted, and never a refusal, is its own form of "no
step" (log entry 4, DEDUCED). -/
def Obligations.StepsLeaveRunningOnly : Prop :=
  State.reset.st = .running 0 ∧
  (∀ s : State, (∃ t, step s = .next t) ↔ ∃ o, s.st = .running o) ∧
  (∀ s : State, s.st = .done → step s = .fault .runDone) ∧
  (∀ (s : State) (k : ErrorKind) (a : Nat) (b : Byte), s.st = .fault k a b → step s = .fault .runFaulted) ∧
  (∀ (s : State) (q : Refusal), step s ≠ .refused q)

/-- The final step (R102): with `offset >= LEN` the state becomes `Done` and nothing is emitted or read. -/
def Obligations.FinalStepEndsTheRun : Prop :=
  ∀ (s : State) (o : Nat), s.st = .running o → s.len ≤ o → step s = .next { s with st := .done }

/-- The advance of the offset (R13): a decoding step advances by exactly its record's `encodedLength`, which is 2, 3 or 4,
and stays inside the buffer; a faulting step leaves the offset in the fault record, beside the opcode byte (the third
state is D3's and the record's contents D13's, log entry 13, DESIGN CHOICE); the only other step is the one to `Done`. -/
def Obligations.OffsetAdvancesExactly : Prop :=
  ∀ (s t : State) (o : Nat), s.st = .running o → step s = .next t →
    (∃ r, t = { s with st := .running (o + r.encodedLength), out := s.out ++ [r] } ∧
      (r.encodedLength = 2 ∨ r.encodedLength = 3 ∨ r.encodedLength = 4) ∧ o + r.encodedLength ≤ s.len) ∨
    (o < s.len ∧ ∃ k, t = { s with st := .fault k o (s.buf.read o) }) ∨
    (s.len ≤ o ∧ t = { s with st := .done })

/-- `mov r/m, reg` (R110), at the bytes: `B1 = 1000100w`; `B2` gives `mod`, `reg`, `rm`; AMR gives the destination and the
extra bytes; a missing byte raises `TruncatedStream`. -/
def Obligations.RegisterSourceMoveOfTheBytes : Prop :=
  ∀ (s : State) (o : Nat) (w : Width) (b1 : Byte), s.st = .running o → s.fetch o = some b1 →
    b1 = (0b1000100#7 ++ w.bit : BitVec 8) →
    (s.fetch (o + 1) = none → step s = raise .truncatedStream s) ∧
    (∀ b2, s.fetch (o + 1) = some b2 →
      (∀ k, s.resolveAt (b2.extractLsb' 6 2) (b2.extractLsb' 0 3) w (o + 2) = .error k →
        k = .truncatedStream ∧ step s = raise .truncatedStream s) ∧
      (∀ other n, s.resolveAt (b2.extractLsb' 6 2) (b2.extractLsb' 0 3) w (o + 2) = .ok (other, n) →
        step s = .next { s with
          st := .running (o + (2 + n))
          out := s.out ++ [⟨.mov, other, .register ⟨w, b2.extractLsb' 3 3⟩, 2 + n⟩] }))

/-- `mov reg, r/m` (R111), at the bytes: as R110 with `B1 = 1000101w` and the operands in the other order. -/
def Obligations.RegisterDestinationMoveOfTheBytes : Prop :=
  ∀ (s : State) (o : Nat) (w : Width) (b1 : Byte), s.st = .running o → s.fetch o = some b1 →
    b1 = (0b1000101#7 ++ w.bit : BitVec 8) →
    (s.fetch (o + 1) = none → step s = raise .truncatedStream s) ∧
    (∀ b2, s.fetch (o + 1) = some b2 →
      (∀ k, s.resolveAt (b2.extractLsb' 6 2) (b2.extractLsb' 0 3) w (o + 2) = .error k →
        k = .truncatedStream ∧ step s = raise .truncatedStream s) ∧
      (∀ other n, s.resolveAt (b2.extractLsb' 6 2) (b2.extractLsb' 0 3) w (o + 2) = .ok (other, n) →
        step s = .next { s with
          st := .running (o + (2 + n))
          out := s.out ++ [⟨.mov, .register ⟨w, b2.extractLsb' 3 3⟩, other, 2 + n⟩] }))

/-- `mov reg, imm` at the bytes `1011 w reg`, data (45_mov_variants.md section 2; the pattern is D4's, unsigned is D9). -/
def Obligations.ImmediateMoveOfTheBytes : Prop :=
  ∀ (s : State) (o : Nat) (reg : RegField), s.st = .running o →
    (s.fetch o = some (0b10110#5 ++ reg : BitVec 8) →
      (s.fetch (o + 1) = none → step s = raise .truncatedStream s) ∧
      (∀ lo, s.fetch (o + 1) = some lo → step s = .next { s with
        st := .running (o + 2)
        out := s.out ++ [⟨.mov, .register ⟨.byte, reg⟩, .immediate (BitVec.ofNat 16 lo.toNat), 2⟩] })) ∧
    (s.fetch o = some (0b10111#5 ++ reg : BitVec 8) →
      (s.fetch (o + 1) = none ∨ s.fetch (o + 2) = none → step s = raise .truncatedStream s) ∧
      (∀ lo hi, s.fetch (o + 1) = some lo → s.fetch (o + 2) = some hi → step s = .next { s with
        st := .running (o + 3)
        out := s.out ++ [⟨.mov, .register ⟨.word, reg⟩, .immediate (BitVec.ofNat 16 (256 * hi.toNat + lo.toNat)), 3⟩] }))

/-- `mov ax, [addr]` and `mov [addr], ax` at the bytes `A0`..`A3`, address (45_mov_variants.md section 3; the opcode bits are
G1's, zero extension D10). -/
def Obligations.AccumulatorMoveOfTheBytes : Prop :=
  ∀ (s : State) (o : Nat) (b1 : Byte), s.st = .running o → s.fetch o = some b1 →
    (b1 = 0xA0#8 ∨ b1 = 0xA2#8 →
      (s.fetch (o + 1) = none → step s = raise .truncatedStream s) ∧
      (∀ lo, s.fetch (o + 1) = some lo → step s = .next { s with
        st := .running (o + 2)
        out := s.out ++ [if b1 = 0xA0#8
          then ⟨.mov, .register ⟨.word, 0#3⟩, .directAddress (BitVec.ofNat 16 lo.toNat), 2⟩
          else ⟨.mov, .directAddress (BitVec.ofNat 16 lo.toNat), .register ⟨.word, 0#3⟩, 2⟩] })) ∧
    (b1 = 0xA1#8 ∨ b1 = 0xA3#8 →
      (s.fetch (o + 1) = none ∨ s.fetch (o + 2) = none → step s = raise .truncatedStream s) ∧
      (∀ lo hi, s.fetch (o + 1) = some lo → s.fetch (o + 2) = some hi → step s = .next { s with
        st := .running (o + 3)
        out := s.out ++ [if b1 = 0xA1#8
          then ⟨.mov, .register ⟨.word, 0#3⟩, .directAddress (BitVec.ofNat 16 (256 * hi.toNat + lo.toNat)), 3⟩
          else ⟨.mov, .directAddress (BitVec.ofNat 16 (256 * hi.toNat + lo.toNat)), .register ⟨.word, 0#3⟩, 3⟩] }))

/-- The lengths (R40): with the first two bytes in the buffer and a decode path, the step emits a record of exactly the
table's length when that many bytes are left, and raises `TruncatedStream` otherwise (R27, R123); an unsupported variant
has no length and the step faults after the opcode byte (that no second byte is asked for is D14's, log entry 13). The
opcode bytes `A0` to `A3`, `8C`, `8E`, `C6`, `C7` are G1's (log entry 12, PRESUMED). -/
def Obligations.LengthsFollowTheFirstTwoBytes : Prop :=
  ∀ (s : State) (o : Nat) (b1 : Byte), s.st = .running o → s.fetch o = some b1 →
    (∀ b2 n, s.fetch (o + 1) = some b2 → requiredLength b1 b2 = some n →
      2 ≤ n ∧ n ≤ 4 ∧
      (o + n ≤ s.len → ∃ r, r.encodedLength = n ∧
        step s = .next { s with st := .running (o + n), out := s.out ++ [r] }) ∧
      (s.len < o + n → step s = raise .truncatedStream s)) ∧
    (unsupportedByte b1 = true → step s = raise .unsupportedVariant s)

/-- The order of the checks (60_exceptions.md section 2; unsupported before truncated is D14): the error a step raises is
decided by the opcode byte first, and `TruncatedStream` is raised only where the instruction has a decode path and the
buffer ends inside it. The opcode bytes `A0` to `A3`, `8C`, `8E`, `C6`, `C7` are G1's (log entry 12, PRESUMED). -/
def Obligations.ErrorPriority : Prop :=
  ∀ (s : State) (o : Nat) (b1 : Byte) (k : ErrorKind), s.st = .running o → s.fetch o = some b1 →
    (step s = raise k s ↔
      (k = .unrecognizedOpcode ∧ unsupportedByte b1 = false ∧ ∀ b2, requiredLength b1 b2 = none) ∨
      (k = .unsupportedVariant ∧ unsupportedByte b1 = true) ∨
      (k = .truncatedStream ∧ (∀ b2, (requiredLength b1 b2).isSome = true) ∧
        (s.fetch (o + 1) = none ∨ ∃ b2 n, s.fetch (o + 1) = some b2 ∧ requiredLength b1 b2 = some n ∧ s.len < o + n)))

/-- Fault entry (60_exceptions.md section 3; the third state and its record are D3's and D13's): a step that faults was at
the instruction named in the fault record, records its opcode byte, and changes nothing but `st`; and its kind is one of
the three that the table of 60_exceptions.md section 1 calls reachable (that the three others are not is the spec's own
inference, in R61, R66 and R74). -/
def Obligations.FaultEntry : Prop :=
  ∀ (s t : State) (k : ErrorKind) (a : Nat) (b : Byte), step s = .next t → t.st = .fault k a b →
    s.st = .running a ∧ s.fetch a = some b ∧ t = { s with st := .fault k a b } ∧ reachableKind k = true

/-- The length invariant (44_decode_driver.md): a record's `encodedLength` is the number of bytes of the instruction it was
decoded from, those bytes are the encoding of a well-formed instruction, and all of them are in the buffer. -/
def Obligations.RecordCoversItsBytes : Prop :=
  ∀ (s t : State) (o o' : Nat), s.st = .running o → step s = .next t → t.st = .running o' →
    ∃ i, i.wf = true ∧ encode i = s.bytesFrom (o' - o) o ∧ i.encodedLength = some (o' - o) ∧ o < o' ∧ o' ≤ s.len ∧
      step s = exec i s

/-- A record depends on the bytes of its own instruction alone (44_decode_driver.md: no look-ahead, no history): wherever the
same bytes stand, in any buffer at any index, the same record is emitted. -/
def Obligations.RecordDependsOnItsBytesAlone : Prop :=
  ∀ (s s' : State) (i i' : Nat) (r : Record), emitsAt s i r →
    (∀ k, k < r.encodedLength → s'.fetch (i' + k) = s.fetch (i + k)) → emitsAt s' i' r

/-- A step reads no history and no debug flag (10_state.md section 5, 60_exceptions.md section 6; the flag is D19's, log
entry 13). -/
def Obligations.StepIgnoresHistoryAndDebug : Prop :=
  ∀ (s t : State) (out : List Record) (debug : Bool), step s = .next t →
    ∃ new, t.out = s.out ++ new ∧
      step { s with out := out, debug := debug } = .next { t with out := out ++ new, debug := debug }

/-- The error codes (60_exceptions.md section 1; the numbers are D20's): 0 without a fault, and six different codes from 1. -/
def Obligations.ErrorCodes : Prop :=
  errorCode .unrecognizedOpcode = 1#3 ∧ errorCode .ambiguousOpcode = 2#3 ∧ errorCode .truncatedStream = 3#3 ∧
  errorCode .invalidWidth = 4#3 ∧ errorCode .malformedField = 5#3 ∧ errorCode .unsupportedVariant = 6#3 ∧
  (∀ s : DriverState, s.code = 0#3 ↔ ∀ k a b, s ≠ .fault k a b)

/-! ### Invariants -/

/-- The state after reset, and every state a reset is applied to over a well-formed buffer, has the run's invariant
(what a reset does is D18's, log entry 13; the empty buffer of `State.reset` is the model's choice, log entry 2, and the
canonical form of a buffer log entry 1's). -/
def Obligations.ResetHasTheInvariant : Prop :=
  Inv State.reset ∧ ∀ s : State, bufOk s →
    Inv s.applyReset ∧ s.applyReset = { s with st := .running 0, out := [] }

/-- Every step keeps the invariant: the buffer stays canonical, the offset stays within it, and the records emitted so far
partition the bytes before the offset, before `LEN` in `Done`, before the faulting instruction in `Fault`. The canonical
form is the model's (log entry 1, DESIGN CHOICE); the index and the opcode byte of the fault record are D3's and D13's (log
entry 13, DESIGN CHOICE); that a fault's kind is one of the three of `reachableKind` is the spec's own inference (R61, R66
and R74, and the table of 60_exceptions.md section 1). -/
def Obligations.StepKeepsTheInvariant : Prop :=
  ∀ s t : State, Inv s → step s = .next t → Inv t

/-- The offset never leaves its width (00_scope.md section 3, 10_state.md section 2): for every `OFFSET_W` the precondition
`LEN < 2^OFFSET_W` is kept, and the offset and the fault index stay below `2^OFFSET_W`. -/
def Obligations.OffsetNeverWraps : Prop :=
  ∀ (W o : Nat) (s t : State), fitsOffset W s → s.st = .running o → o ≤ s.len → step s = .next t →
    fitsOffset W t ∧ (∀ o', t.st = .running o' → o < o' ∧ o' ≤ t.len ∧ o' < 2 ^ W) ∧
    (∀ k a b, t.st = .fault k a b → a < 2 ^ W)

/-- The records the block can emit are exactly those of `Record.possible`: a designator on one side at least, with an
operand and a length that fit it (10_state.md section 6); every one of them is emitted from some buffer. The Immediate
operand is D8's, its being unsigned D9's, the zero extension of a 1-byte address D10's, `ax` for both widths D22's (log
entry 13, DESIGN CHOICE); that an address can stand with `ax` in 2 or 3 bytes rests on G1's patterns and the range of a
displacement on G4 (log entry 12, PRESUMED). -/
def Obligations.PossibleRecordsAreTheEmittedOnes : Prop :=
  ∀ r : Record, r.possible = true ↔ ∃ s t, step s = .next t ∧ t.out = s.out ++ [r]

/-- What was emitted stands (10_state.md section 3, 60_exceptions.md section 3; D15): along a run `out` only grows, and the
buffer and its length stay as they are. -/
def Obligations.EmittedRecordsStand : Prop :=
  ∀ (n : Nat) (s : State), s.out <+: (run n s).out ∧ (run n s).buf = s.buf ∧ (run n s).len = s.len

/-! ### Runs -/

/-- Termination (44_decode_driver.md): from a reset over any buffer, at most `LEN/2` records are emitted and after at most
`LEN/2 + 1` steps the run is in `Done` or `Fault`; it is successful exactly when the status shows the error code 0 (the
codes are D20's, `Fault` D3's, log entry 13). -/
def Obligations.EveryRunEnds : Prop :=
  ∀ s : State, (finalState s).st.terminal = true ∧ (finalState s).out.length ≤ s.len / 2 ∧
    ((finalState s).st.successful = true ↔ (finalState s).st.code = 0#3)

/-- The partition (20_memory.md section 3): in a run that ends in `Done` every byte of the buffer belongs to exactly one
record; in a run that ends in `Fault(kind, at, byte)` every byte before `at` does, and `at` is inside the buffer, `at < LEN`
(the fault record is D3's and D13's, log entry 13). -/
def Obligations.RecordsPartitionTheBuffer : Prop :=
  ∀ (s : State) (e : Nat),
    ((finalState s).st = .done ∧ e = s.len ∨ ∃ k b, (finalState s).st = .fault k e b) →
    (∀ k b, (finalState s).st = .fault k e b → e < s.len) ∧
    startOf (finalState s).out (finalState s).out.length = e ∧
    ∀ i, i < e → ∃ k, (∃ r, (finalState s).out[k]? = some r ∧
        startOf (finalState s).out k ≤ i ∧ i < startOf (finalState s).out k + r.encodedLength) ∧
      ∀ k' r', (finalState s).out[k']? = some r' → startOf (finalState s).out k' ≤ i →
        i < startOf (finalState s).out k' + r'.encodedLength → k' = k

/-- The result is a function of the buffer alone (70_reset_and_hazards.md section 5, 60_exceptions.md section 6): two states
whose buffers read alike have the same result, whatever the debug flag (that it is ignored is D19's, log entry 13) and
whatever was there before the reset. -/
def Obligations.ResultDependsOnTheBufferAlone : Prop :=
  ∀ s s' : State, (∀ i, s.fetch i = s'.fetch i) → result s = result s'

/-- The whole-program round trip (30_encoding.md section 5): a buffer that is the encodings of any well-formed instructions
with a decode path, one after another, runs to `Done` and emits exactly their records in order. The opcode bits of the
accumulator forms are G1's (log entry 12, PRESUMED); `State.boot` is the model's (log entry 5, DESIGN CHOICE). -/
def Obligations.EncodedProgramsRunToDone : Prop :=
  ∀ (is : List Instr) (debug : Bool), (∀ i ∈ is, i.wf = true ∧ i.encodedLength.isSome = true) →
    (result (State.boot (is.flatMap encode) debug)).2 = .done ∧
    List.Forall₂ emits is (result (State.boot (is.flatMap encode) debug)).1

/-- Start-up (70_reset_and_hazards.md section 2): the buffer a run is started with reads back as placed, byte for byte, with
`LEN` its length and nothing past it. How it is placed, `State.boot`, is the model's (log entry 5, DESIGN CHOICE), and so is
the canonical form that `bufOk` says it has (log entry 1, DESIGN CHOICE). -/
def Obligations.BootedBufferReadsBack : Prop :=
  ∀ (bs : List Byte) (debug : Bool),
    (∀ i, (State.boot bs debug).fetch i = bs[i]?) ∧ bufOk (State.boot bs debug) ∧
    (State.boot bs debug).remaining 0 = bs ∧ (State.boot bs debug).st = .running 0 ∧ (State.boot bs debug).out = []

/-- The empty buffer (44_decode_driver.md): one step, `Done`, and only the header line (D16, log
entry 13; `State.boot` is the model's, log entry 5, DESIGN CHOICE). -/
def Obligations.EmptyBufferEndsAtOnce : Prop :=
  ∀ debug : Bool,
    step (State.boot [] debug) = .next { State.boot [] debug with st := .done } ∧
    result (State.boot [] debug) = ([], .done) ∧ listing (result (State.boot [] debug)).1 = ["bits 16"]

/-- The model's placing of a table word (log entry 5, DESIGN CHOICE), into a buffer in the model's canonical form (log entry 1,
DESIGN CHOICE): the very next step runs the instruction the decoder reads from it. -/
def Obligations.PlacedWordIsTheNextInstruction : Prop :=
  ∀ (s : State) (nbits w : Nat) (i : Instr), s.buf.wf → decodeTableWord nbits w = some i →
    step (s.withFetchWord nbits w) = exec i (s.withFetchWord nbits w)

/-! ### Text, for every value -/

/-- The text form (30_encoding.md section 5; spacing, sign form and number base are D11, D12, unsigned immediates D9, log
entry 13): every line is `mov dest, src`, and every operand has the text of its form, with `dec` of the unsigned value of
an immediate or an address and of the signed value of a displacement (two's complement, G4, log entry 12, PRESUMED), as a
function of the operand and, where a field is extended, of the bytes it was read from. -/
def Obligations.OperandAndLineText : Prop :=
  (∀ r : Record, line r = "mov " ++ operandText r.destination ++ ", " ++ operandText r.source) ∧
  (∀ r : Reg, operandText (.register r) = regName r) ∧
  (∀ v : Word16, operandText (.immediate v) = dec v.toNat) ∧
  (∀ a : Word16, operandText (.directAddress a) = "[" ++ dec a.toNat ++ "]") ∧
  (∀ rm : RegField, operandText (.memory rm none) = "[" ++ baseText rm ++ "]") ∧
  (∀ (rm : RegField) (n : Int), operandText (.memory rm (some n)) = "[" ++ baseText rm ++ " + " ++ dec n ++ "]") ∧
  (∀ b : Byte, operandText (immediate8 b) = dec b.toNat ∧ operandText (address8 b) = "[" ++ dec b.toNat ++ "]") ∧
  (∀ lo hi : Byte, operandText (immediate16 (u16 lo hi)) = dec (256 * hi.toNat + lo.toNat : Nat) ∧
    operandText (address16 (u16 lo hi)) = "[" ++ dec (256 * hi.toNat + lo.toNat : Nat) ++ "]") ∧
  (∀ (w : Width) (rm : RegField) (b : Byte),
    operandText (eaOperand w (.disp8 rm b)) = "[" ++ baseText rm ++ " + " ++ dec b.toInt ++ "]") ∧
  (∀ (w : Width) (rm : RegField) (lo hi : Byte),
    operandText (eaOperand w (.disp16 rm (u16 lo hi))) =
      "[" ++ baseText rm ++ " + " ++ dec (BitVec.ofNat 16 (256 * hi.toNat + lo.toNat)).toInt ++ "]")

/-- The listing of a run (30_encoding.md section 5; that the header stands also before a failed run's lines is D16's, log
entry 13), whether the run ended in `Done` or in `Fault`: the line `bits 16`, then exactly one line per emitted record, in
the order of emission; so at most `LEN/2 + 1` lines. -/
def Obligations.ListingOfARun : Prop :=
  ∀ s : State, ((finalState s).st = .done ∨ ∃ k a b, (finalState s).st = .fault k a b) ∧
    (listing (result s).1).head? = some "bits 16" ∧
    (listing (result s).1).length = (finalState s).out.length + 1 ∧
    (listing (result s).1).length ≤ s.len / 2 + 1 ∧
    ∀ k r, (finalState s).out[k]? = some r → (listing (result s).1)[k + 1]? = some (line r)
end

