-- ==== Sys2Proof/Laws/State.lean ====
section
/-! SUPPORT. One lemma per field per update of State (reset, the start of a run, placing bytes). -/

namespace Sys2Proof.Machine

@[simp] theorem State.applyReset_st (s : State) : s.applyReset.st = .running Config.startIndex := rfl
@[simp] theorem State.applyReset_out (s : State) : s.applyReset.out = [] := rfl
@[simp] theorem State.applyReset_buf (s : State) : s.applyReset.buf = s.buf := rfl
@[simp] theorem State.applyReset_len (s : State) : s.applyReset.len = s.len := rfl
@[simp] theorem State.applyReset_debug (s : State) : s.applyReset.debug = s.debug := rfl

@[simp] theorem State.boot_st (bs : List Byte) (d : Bool) : (State.boot bs d).st = .running Config.startIndex := rfl
@[simp] theorem State.boot_out (bs : List Byte) (d : Bool) : (State.boot bs d).out = [] := rfl
@[simp] theorem State.boot_buf (bs : List Byte) (d : Bool) : (State.boot bs d).buf = Memory.writeBytes [] 0 bs := rfl
@[simp] theorem State.boot_len (bs : List Byte) (d : Bool) : (State.boot bs d).len = bs.length := rfl
@[simp] theorem State.boot_debug (bs : List Byte) (d : Bool) : (State.boot bs d).debug = d := rfl

@[simp] theorem State.placeNext_st (s : State) (bs : List Byte) : (s.placeNext bs).st = .running s.nextIndex := rfl
@[simp] theorem State.placeNext_out (s : State) (bs : List Byte) : (s.placeNext bs).out = s.out := rfl
@[simp] theorem State.placeNext_buf (s : State) (bs : List Byte) :
    (s.placeNext bs).buf = s.buf.writeBytes s.nextIndex bs := rfl
@[simp] theorem State.placeNext_len (s : State) (bs : List Byte) :
    (s.placeNext bs).len = max s.len (s.nextIndex + bs.length) := rfl
@[simp] theorem State.placeNext_debug (s : State) (bs : List Byte) : (s.placeNext bs).debug = s.debug := rfl

end Sys2Proof.Machine
end

