-- ==== Sys2Proof/Laws/Ops.lean ====
section
/-! SUPPORT. For each shared operation one lemma that says once everything it can do. The provers cite these instead of
unfolding. -/

namespace Sys2Proof.Machine

/-! ### Fetching -/

theorem State.fetch_eq_some {s : State} {i : Nat} {b : Byte} :
    s.fetch i = some b ↔ i < s.len ∧ s.buf.read i = b := by
  unfold State.fetch
  split <;> simp_all

theorem State.fetch_eq_none {s : State} {i : Nat} : s.fetch i = none ↔ s.len ≤ i := by
  unfold State.fetch
  split <;> simp_all

theorem State.bytesFrom_getElem? (s : State) (n i k : Nat) :
    (s.bytesFrom n i)[k]? = if k < n then some (s.buf.read (i + k)) else none := by
  induction n generalizing i k with
  | zero => simp [State.bytesFrom]
  | succ n ih =>
    cases k with
    | zero => simp [State.bytesFrom]
    | succ k =>
      simp only [State.bytesFrom, List.getElem?_cons_succ, ih, Nat.add_lt_add_iff_right]
      rw [show i + 1 + k = i + (k + 1) by omega]

/-- The k-th element of the remaining bytes is `Fetch(i + k)`. -/
theorem State.remaining_getElem? (s : State) (i k : Nat) : (s.remaining i)[k]? = s.fetch (i + k) := by
  simp only [State.remaining, State.bytesFrom_getElem?, State.fetch]
  congr 1
  exact propext ⟨fun h => by omega, fun h => by omega⟩

@[simp] theorem State.bytesFrom_length (s : State) (n i : Nat) : (s.bytesFrom n i).length = n := by
  induction n generalizing i with
  | zero => rfl
  | succ n ih => simp [State.bytesFrom, ih]

@[simp] theorem State.remaining_length (s : State) (i : Nat) : (s.remaining i).length = s.len - i := by
  simp [State.remaining]

theorem State.remaining_drop (s : State) (i k : Nat) : (s.remaining i).drop k = s.remaining (i + k) := by
  apply List.ext_getElem?
  intro j
  rw [List.getElem?_drop, State.remaining_getElem?, State.remaining_getElem?, Nat.add_assoc]

/-- Reading a byte of the remaining stream is `Fetch`, with `TruncatedStream` past the end (R27). -/
theorem byteAt_remaining (s : State) (i k : Nat) :
    byteAt (s.remaining i) k =
      match s.fetch (i + k) with
      | some b => .ok b
      | none => .error .truncatedStream := by
  cases h : s.fetch (i + k) <;> simp only [byteAt, State.remaining_getElem?, h]

/-! ### The end of a step -/

@[simp] theorem whenRunning_running (s : State) (o : Nat) (k) (h : s.st = .running o) : whenRunning s k = k o := by
  simp only [whenRunning, h]

@[simp] theorem whenRunning_done (s : State) (k) (h : s.st = .done) : whenRunning s k = .fault .runDone := by
  simp only [whenRunning, h]

@[simp] theorem whenRunning_fault (s : State) (e a b) (k) (h : s.st = .fault e a b) :
    whenRunning s k = .fault .runFaulted := by
  simp only [whenRunning, h]

/-- A next state arises only in `Running`. -/
theorem whenRunning_next {s t : State} {k} (h : whenRunning s k = .next t) :
    ∃ o, s.st = .running o ∧ k o = .next t := by
  unfold whenRunning at h
  split at h
  · exact ⟨_, ‹_›, h⟩
  · cases h
  · cases h

/-- Everything `complete` can do. -/
theorem complete_next {r : Record} {s t : State} (h : complete r s = .next t) :
    ∃ o, s.st = .running o ∧
      t = { s with st := .running (o + r.encodedLength), out := s.out ++ [r] } := by
  obtain ⟨o, ho, hk⟩ := whenRunning_next h
  exact ⟨o, ho, by cases hk; rfl⟩

theorem complete_running {r : Record} {s : State} {o : Nat} (h : s.st = .running o) :
    complete r s = .next { s with st := .running (o + r.encodedLength), out := s.out ++ [r] } :=
  whenRunning_running s o _ h

/-- Everything `raise` can do. -/
theorem raise_next {k : ErrorKind} {s t : State} (h : raise k s = .next t) :
    ∃ o, s.st = .running o ∧ t = { s with st := .fault k o (s.buf.read o) } := by
  obtain ⟨o, ho, hk⟩ := whenRunning_next h
  exact ⟨o, ho, by cases hk; rfl⟩

theorem raise_running {k : ErrorKind} {s : State} {o : Nat} (h : s.st = .running o) :
    raise k s = .next { s with st := .fault k o (s.buf.read o) } :=
  whenRunning_running s o _ h

/-- Everything `finish` can do. -/
theorem finish_next {s t : State} (h : finish s = .next t) :
    ∃ o, s.st = .running o ∧ t = { s with st := .done } := by
  obtain ⟨o, ho, hk⟩ := whenRunning_next h
  exact ⟨o, ho, by cases hk; rfl⟩

theorem finish_running {s : State} {o : Nat} (h : s.st = .running o) :
    finish s = .next { s with st := .done } :=
  whenRunning_running s o _ h

/-! ### What an instruction can do -/

/-- The record an instruction's meaning emits; the unsupported variants emit none. -/
def recordOf : Instr → Option Record
  | .movRmReg w reg ea => some (format .mov .regIsSource (regx w reg) (eaOperand w ea) (2 + ea.bytesConsumed))
  | .movRegRm w reg ea => some (format .mov .regIsDestination (regx w reg) (eaOperand w ea) (2 + ea.bytesConsumed))
  | .movReg8Imm8 reg imm => some (formatFixed .mov (regx .byte reg) (immediate8 imm) 2)
  | .movReg16Imm16 reg imm => some (formatFixed .mov (regx .word reg) (immediate16 imm) 3)
  | .movAxAddr8 a => some (formatFixed .mov accumulator (address8 a) 2)
  | .movAxAddr16 a => some (formatFixed .mov accumulator (address16 a) 3)
  | .movAddr8Ax a => some (formatFixed .mov (address8 a) accumulator 2)
  | .movAddr16Ax a => some (formatFixed .mov (address16 a) accumulator 3)
  | .immediateToRegMemory _ => none
  | .regToSegment => none
  | .segmentToReg => none

/-- The two things `exec` does: complete with the instruction's record, or raise `UnsupportedVariant`. -/
theorem exec_eq (i : Instr) (s : State) :
    exec i s =
      match recordOf i with
      | some r => complete r s
      | none => raise .unsupportedVariant s := by
  cases i <;> rfl

/-- A step in `Running` with a byte left. -/
theorem step_decode {s : State} {o : Nat} (h : s.st = .running o) (hl : o < s.len) :
    step s =
      match decode (s.remaining o) with
      | .ok i => exec i s
      | .error k => raise k s := by
  cases hd : decode (s.remaining o) <;> simp only [step, whenRunning_running s o _ h, if_pos hl, hd]

/-- A step in `Running` with no byte left. -/
theorem step_end {s : State} {o : Nat} (h : s.st = .running o) (hl : s.len ≤ o) :
    step s = .next { s with st := .done } := by
  rw [step, whenRunning_running s o _ h, if_neg (by omega), finish_running h]

/-- Everything a step can do when it answers a next state: emit a record and advance, fault, or end the run. -/
theorem step_cases {s t : State} (h : step s = .next t) :
    ∃ o, s.st = .running o ∧
      ((o < s.len ∧ ∃ i r, decode (s.remaining o) = .ok i ∧ recordOf i = some r ∧
          t = { s with st := .running (o + r.encodedLength), out := s.out ++ [r] }) ∨
       (o < s.len ∧ ∃ i, decode (s.remaining o) = .ok i ∧ recordOf i = none ∧
          t = { s with st := .fault .unsupportedVariant o (s.buf.read o) }) ∨
       (o < s.len ∧ ∃ k, decode (s.remaining o) = .error k ∧
          t = { s with st := .fault k o (s.buf.read o) }) ∨
       (s.len ≤ o ∧ t = { s with st := .done })) := by
  obtain ⟨o, ho, -⟩ := whenRunning_next h
  refine ⟨o, ho, ?_⟩
  by_cases hl : o < s.len
  · rw [step_decode ho hl] at h
    cases hd : decode (s.remaining o) with
    | error k =>
      simp only [hd, raise_running ho] at h
      exact .inr (.inr (.inl ⟨hl, k, rfl, by cases h; rfl⟩))
    | ok i =>
      simp only [hd, exec_eq] at h
      cases hr : recordOf i with
      | none =>
        simp only [hr, raise_running ho] at h
        exact .inr (.inl ⟨hl, i, rfl, hr, by cases h; rfl⟩)
      | some r =>
        simp only [hr, complete_running ho] at h
        exact .inl ⟨hl, i, r, rfl, hr, by cases h; rfl⟩
  · rw [step_end ho (by omega)] at h
    exact .inr (.inr (.inr ⟨by omega, by cases h; rfl⟩))

end Sys2Proof.Machine
end

