-- ==== Sys2Proof/Laws/Decode.lean ====
section
/-! SUPPORT. The small lemmas of the decoder: what a fetch, a field, a first byte and a mod/rm part can be. -/

namespace Sys2Proof

/-! ### Sequencing -/

/-- A sequence that answers a value: its first part did, and so did the rest on it. -/
theorem bind_eq_ok {ε α β : Type} {x : Except ε α} {f : α → Except ε β} {b : β} (h : (x >>= f) = .ok b) :
    ∃ a, x = .ok a ∧ f a = .ok b := by
  cases x with
  | error => cases h
  | ok a => exact ⟨a, rfl, h⟩

/-- A sequence that raises: its first part did, or the rest did. -/
theorem bind_eq_error {ε α β : Type} {x : Except ε α} {f : α → Except ε β} {e : ε} (h : (x >>= f) = .error e) :
    x = .error e ∨ ∃ a, x = .ok a ∧ f a = .error e := by
  cases x with
  | error => cases h; exact .inl rfl
  | ok a => exact .inr ⟨a, rfl, h⟩

/-! ### Fetches -/

theorem byteAt_eq_ok {bs : List Byte} {k : Nat} {b : Byte} (h : byteAt bs k = .ok b) : bs[k]? = some b := by
  unfold byteAt at h
  split at h <;> simp_all

/-- The only error of a fetch is `TruncatedStream` (R27). -/
theorem byteAt_eq_error {bs : List Byte} {k : Nat} {e : ErrorKind} (h : byteAt bs k = .error e) :
    e = .truncatedStream := by
  unfold byteAt at h
  split at h <;> simp_all

theorem wordAt_eq_ok {bs : List Byte} {k : Nat} {v : Word16} (h : wordAt bs k = .ok v) :
    ∃ lo hi, bs[k]? = some lo ∧ bs[k + 1]? = some hi ∧ v = u16 lo hi := by
  obtain ⟨lo, h1, h⟩ := bind_eq_ok h
  obtain ⟨hi, h2, h⟩ := bind_eq_ok h
  exact ⟨lo, hi, byteAt_eq_ok h1, byteAt_eq_ok h2, by cases h; rfl⟩

theorem wordAt_eq_error {bs : List Byte} {k : Nat} {e : ErrorKind} (h : wordAt bs k = .error e) :
    e = .truncatedStream := by
  rcases bind_eq_error h with h | ⟨lo, -, h⟩
  · exact byteAt_eq_error h
  · rcases bind_eq_error h with h | ⟨hi, -, h⟩
    · exact byteAt_eq_error h
    · cases h

/-- Reading a word of the remaining stream is two `Fetch`es, low byte first (R29). -/
theorem wordAt_remaining (s : Machine.State) (p k : Nat) :
    wordAt (s.remaining p) k =
      match s.fetch (p + k), s.fetch (p + k + 1) with
      | some lo, some hi => .ok (u16 lo hi)
      | _, _ => .error .truncatedStream := by
  simp only [wordAt, Machine.byteAt_remaining, bind, Except.bind]
  rw [← Nat.add_assoc]
  cases s.fetch (p + k) with
  | none => simp
  | some lo => cases s.fetch (p + k + 1) <;> simp

/-! ### Words -/

theorem u16_toNat (lo hi : Byte) : (u16 lo hi).toNat = 256 * hi.toNat + lo.toNat := by
  have := lo.isLt
  have := hi.isLt
  simp only [u16, BitVec.toNat_ofNat]
  omega

theorem lowHigh_u16 (lo hi : Byte) : lowHigh (u16 lo hi) = [lo, hi] := by
  have := lo.isLt
  have := hi.isLt
  simp only [lowHigh, u16]
  congr 1
  · apply BitVec.eq_of_toNat_eq
    simp
    omega
  · congr 1
    apply BitVec.eq_of_toNat_eq
    simp [Nat.shiftRight_eq_div_pow]
    omega

theorem u16_lowHigh (v : Word16) : u16 (v.setWidth 8) ((v >>> 8).setWidth 8) = v := by
  apply BitVec.eq_of_toNat_eq
  have := v.isLt
  simp [u16, Nat.shiftRight_eq_div_pow]
  omega

/-! ### Fields -/

/-- The three fields of a mod/reg/rm byte (R42). -/
theorem field_modRegRm : ∀ (m : BitVec 2) (r x : RegField),
    field (modRegRm m r x) 0 2 = .ok m ∧ field (modRegRm m r x) 2 3 = .ok r ∧
      field (modRegRm m r x) 5 3 = .ok x := by decide +kernel

/-- Every byte is the mod/reg/rm byte of its own three fields (R42: all 256 values are legal). -/
theorem modRegRm_of_byte : ∀ b : Byte, b = modRegRm (b.extractLsb' 6 2) (b.extractLsb' 3 3) (b.extractLsb' 0 3) := by
  decide +kernel

/-- Fields `w`, `d` of the opcode byte of `regToFromReg` (R41), and its classification. -/
theorem opRegToFromReg_fields (d : BitVec 1) (w : Width) :
    classify (opRegToFromReg d w) = .ok .regToFromReg ∧ field (opRegToFromReg d w) 6 1 = .ok d ∧
      field (opRegToFromReg d w) 7 1 = .ok w.bit := by
  revert d
  cases w <;> decide

/-- Fields `w`, `reg` of the opcode byte of `immediateToReg` (R41), and its classification. -/
theorem opImmediateToReg_fields (w : Width) (r : RegField) :
    classify (opImmediateToReg w r) = .ok .immediateToReg ∧ field (opImmediateToReg w r) 5 3 = .ok r ∧
      field (opImmediateToReg w r) 4 1 = .ok w.bit := by
  revert r
  cases w <;> decide

/-- The width of a width's own bit. -/
theorem width_bit (w : Width) : width w.bit.toNat = .ok w := by
  cases w <;> rfl

/-! ### First bytes -/

/-- The only error of the classifier with the block's table is `UnrecognizedOpcode` (R74). -/
theorem classify_eq_error {b : Byte} {k : ErrorKind} (h : classify b = .error k) : k = .unrecognizedOpcode := by
  have key : ∀ b : Byte, ∀ k ∈ [ErrorKind.ambiguousOpcode, .truncatedStream, .invalidWidth, .malformedField,
      .unsupportedVariant], classify b ≠ .error k := by decide +kernel
  by_contra hc
  exact key b k (by cases k <;> simp_all) h

theorem classify_regToFromReg {b : Byte} (h : classify b = .ok .regToFromReg) : ∃ d w, b = opRegToFromReg d w := by
  have key : ∀ b : Byte, classify b = .ok .regToFromReg →
      b = opRegToFromReg (b.extractLsb' 1 1) .byte ∨ b = opRegToFromReg (b.extractLsb' 1 1) .word := by decide +kernel
  rcases key b h with h | h <;> exact ⟨_, _, h⟩

theorem classify_immediateToReg {b : Byte} (h : classify b = .ok .immediateToReg) : ∃ w r, b = opImmediateToReg w r := by
  have key : ∀ b : Byte, classify b = .ok .immediateToReg →
      b = opImmediateToReg .byte (b.extractLsb' 0 3) ∨ b = opImmediateToReg .word (b.extractLsb' 0 3) := by decide +kernel
  rcases key b h with h | h <;> exact ⟨_, _, h⟩

theorem classify_memToAcc {b : Byte} (h : classify b = .ok .memToAcc) : b = 0xA0#8 ∨ b = 0xA1#8 := by
  revert b; decide +kernel

theorem classify_accToMem {b : Byte} (h : classify b = .ok .accToMem) : b = 0xA2#8 ∨ b = 0xA3#8 := by
  revert b; decide +kernel

theorem classify_immediateToRegMemory {b : Byte} (h : classify b = .ok .immediateToRegMemory) :
    b = 0b1100011#7 ++ BitVec.ofNat 1 b.toNat := by
  revert b; decide +kernel

theorem classify_regToSegment {b : Byte} (h : classify b = .ok .regToSegment) : b = 0x8E#8 := by
  revert b; decide +kernel

theorem classify_segmentToReg {b : Byte} (h : classify b = .ok .segmentToReg) : b = 0x8C#8 := by
  revert b; decide +kernel

/-! ### The mod/rm part -/

/-- What `readEa` answers is well formed, has the fields it was read with, and its trailing bytes head the stream. -/
theorem readEa_eq_ok {m : BitVec 2} {rm : RegField} {rest : List Byte} {ea : Ea}
    (h : readEa (addressingMode m) rm rest = .ok ea) :
    ea.wf = true ∧ ea.mod = m ∧ ea.rm = rm ∧ ea.trailing = rest.take ea.trailing.length := by
  have modes : ∀ m : BitVec 2, m = 0#2 ∨ m = 1#2 ∨ m = 2#2 ∨ m = 3#2 := by decide
  rcases modes m with rfl | rfl | rfl | rfl
  · simp only [readEa, show addressingMode 0#2 = .memoryNoDisplacement from rfl] at h
    split at h
    · obtain ⟨a, h1, h⟩ := bind_eq_ok h
      obtain ⟨lo, hi, e1, e2, rfl⟩ := wordAt_eq_ok h1
      cases h
      refine ⟨rfl, rfl, by simp [Ea.rm, *], ?_⟩
      match rest, e1, e2 with
      | a :: b :: r, e1, e2 => simp at e1 e2; subst e1 e2; simp [Ea.trailing, lowHigh_u16]
    · cases h
      exact ⟨by simp [Ea.wf]; assumption, rfl, rfl, rfl⟩
  · obtain ⟨a, h1, h⟩ := bind_eq_ok h
    have := byteAt_eq_ok h1
    cases h
    refine ⟨rfl, rfl, rfl, ?_⟩
    match rest, this with
    | b :: r, e => simp at e; subst e; simp [Ea.trailing]
  · obtain ⟨a, h1, h⟩ := bind_eq_ok h
    obtain ⟨lo, hi, e1, e2, rfl⟩ := wordAt_eq_ok h1
    cases h
    refine ⟨rfl, rfl, rfl, ?_⟩
    match rest, e1, e2 with
    | a :: b :: r, e1, e2 => simp at e1 e2; subst e1 e2; simp [Ea.trailing, lowHigh_u16]
  · cases h
    exact ⟨rfl, rfl, rfl, rfl⟩

/-- A well-formed mod/rm part is read back from its own fields and trailing bytes. -/
theorem readEa_trailing {ea : Ea} (h : ea.wf = true) (rest : List Byte) :
    readEa (addressingMode ea.mod) ea.rm (ea.trailing ++ rest) = .ok ea := by
  cases ea with
  | register => rfl
  | base rm =>
    have : rm ≠ 6#3 := by simpa [Ea.wf] using h
    simp [addressingMode, Ea.mod, Ea.rm, readEa, this]
  | direct a =>
    simp [addressingMode, Ea.mod, Ea.rm, readEa, Ea.trailing, wordAt, byteAt, lowHigh, bind, Except.bind, u16_lowHigh]
  | disp8 => simp [addressingMode, Ea.mod, Ea.rm, readEa, Ea.trailing, byteAt, bind, Except.bind]
  | disp16 =>
    simp [addressingMode, Ea.mod, Ea.rm, readEa, Ea.trailing, wordAt, byteAt, lowHigh, bind, Except.bind, u16_lowHigh]

/-- The only error of AMR is `TruncatedStream` (R88). -/
theorem readEa_eq_error {m : AddressingMode} {rm : RegField} {rest : List Byte} {e : ErrorKind}
    (h : readEa m rm rest = .error e) : e = .truncatedStream := by
  cases m with
  | memoryNoDisplacement =>
    simp only [readEa] at h
    split at h
    · rcases bind_eq_error h with h | ⟨a, -, h⟩
      · exact wordAt_eq_error h
      · cases h
    · cases h
  | memoryDisplacement8 =>
    rcases bind_eq_error h with h | ⟨a, -, h⟩
    · exact byteAt_eq_error h
    · cases h
  | memoryDisplacement16 =>
    rcases bind_eq_error h with h | ⟨a, -, h⟩
    · exact wordAt_eq_error h
    · cases h
  | registerMode => cases h

/-- The record of an instruction has the instruction's length (R40). -/
theorem Machine.recordOf_encodedLength (i : Instr) :
    i.encodedLength = (Machine.recordOf i).map Machine.Record.encodedLength := by
  cases i <;> rfl

end Sys2Proof
end

