-- ==== Sys2Proof/Laws/Memory.lean ====
section
/-! SUPPORT. The laws of the buffer's memory: a read after a write, and that placing bytes keeps the canonical form. -/

namespace Sys2Proof.Machine

@[simp] theorem Memory.read_nil (a : Nat) : Memory.read [] a = Config.unlistedByte := rfl

@[simp] theorem Memory.wf_nil : Memory.wf [] := ⟨List.Pairwise.nil, by simp⟩

/-- A memory whose entries all lie above `a` holds the unlisted byte at `a`. -/
theorem Memory.read_of_lt (m : Memory) (a : Nat) (h : ∀ c ∈ m, a < c.1) : m.read a = Config.unlistedByte := by
  induction m with
  | nil => rfl
  | cons c rest ih =>
    have hc := h c (by simp)
    simp only [Memory.read, if_neg (by omega : ¬ c.1 = a)]
    exact ih (fun d hd => h d (by simp [hd]))

/-- A read of the address just written gives the byte written. -/
theorem Memory.read_write_same (m : Memory) (a : Nat) (b : Byte) (h : m.wf) : (m.write a b).read a = b := by
  induction m with
  | nil => simp only [Memory.write]; split <;> simp_all [Memory.read]
  | cons c rest ih =>
    obtain ⟨hp, hu⟩ := h
    obtain ⟨hc, hr⟩ := List.pairwise_cons.1 hp
    have hrest : Memory.wf rest := ⟨hr, fun d hd => hu d (by simp [hd])⟩
    simp only [Memory.write]
    split
    · rename_i hlt
      split
      · rename_i hb
        rw [hb]
        refine Memory.read_of_lt _ _ (fun d hd => ?_)
        rcases List.mem_cons.1 hd with rfl | hd
        · exact hlt
        · exact lt_trans hlt (hc d hd)
      · simp [Memory.read]
    · split
      · rename_i heq
        split
        · rename_i hb
          rw [hb]
          exact Memory.read_of_lt _ _ (fun d hd => heq ▸ hc d hd)
        · simp [Memory.read]
      · rename_i hne
        simp only [Memory.read, if_neg (Ne.symm hne)]
        exact ih hrest

/-- A write leaves every other address as it was. -/
theorem Memory.read_write_other (m : Memory) (a k : Nat) (b : Byte) (h : m.wf) (hk : k ≠ a) :
    (m.write a b).read k = m.read k := by
  induction m with
  | nil =>
    simp only [Memory.write]
    split
    · rfl
    · simp [Memory.read, Ne.symm hk]
  | cons c rest ih =>
    obtain ⟨hp, hu⟩ := h
    obtain ⟨hc, hr⟩ := List.pairwise_cons.1 hp
    have hrest : Memory.wf rest := ⟨hr, fun d hd => hu d (by simp [hd])⟩
    simp only [Memory.write]
    split
    · split
      · rfl
      · simp [Memory.read, Ne.symm hk]
    · split
      · rename_i heq
        split
        · simp only [Memory.read, if_neg (fun e => hk (e ▸ heq.symm) : ¬ c.1 = k)]
        · simp only [Memory.read, if_neg (Ne.symm hk), if_neg (fun e => hk (e ▸ heq.symm) : ¬ c.1 = k)]
      · simp only [Memory.read]
        rw [ih hrest]

/-- Every entry after a write is the one written or an entry from before. -/
theorem Memory.mem_write (m : Memory) (a : Nat) (b : Byte) (c : Host.Cell) (h : c ∈ m.write a b) :
    c = (a, b) ∧ b ≠ Config.unlistedByte ∨ c ∈ m := by
  induction m with
  | nil =>
    simp only [Memory.write] at h
    split at h <;> simp_all
  | cons d rest ih =>
    simp only [Memory.write] at h
    split at h
    · split at h
      · exact .inr h
      · rcases List.mem_cons.1 h with rfl | h
        · exact .inl ⟨rfl, ‹_›⟩
        · exact .inr h
    · split at h
      · split at h
        · exact .inr (List.mem_cons_of_mem _ h)
        · rcases List.mem_cons.1 h with rfl | h
          · exact .inl ⟨rfl, ‹_›⟩
          · exact .inr (List.mem_cons_of_mem _ h)
      · rcases List.mem_cons.1 h with rfl | h
        · exact .inr (by simp)
        · rcases ih h with h | h
          · exact .inl h
          · exact .inr (List.mem_cons_of_mem _ h)

/-- A write keeps the canonical form. -/
theorem Memory.wf_write (m : Memory) (a : Nat) (b : Byte) (h : m.wf) : (m.write a b).wf := by
  refine ⟨?_, fun c hc => ?_⟩
  · induction m with
    | nil => simp only [Memory.write]; split <;> simp
    | cons c rest ih =>
      obtain ⟨hp, hu⟩ := h
      obtain ⟨hc, hr⟩ := List.pairwise_cons.1 hp
      have hrest : Memory.wf rest := ⟨hr, fun d hd => hu d (by simp [hd])⟩
      simp only [Memory.write]
      split
      · rename_i hlt
        split
        · exact hp
        · refine List.pairwise_cons.2 ⟨fun d hd => ?_, hp⟩
          rcases List.mem_cons.1 hd with rfl | hd
          · exact hlt
          · exact lt_trans hlt (hc d hd)
      · split
        · rename_i heq
          split
          · exact hr
          · exact List.pairwise_cons.2 ⟨fun d hd => heq ▸ hc d hd, hr⟩
        · refine List.pairwise_cons.2 ⟨fun d hd => ?_, ih hrest⟩
          rcases Memory.mem_write rest a b d hd with ⟨rfl, -⟩ | hd
          · show c.1 < a
            omega
          · exact hc d hd
  · rcases Memory.mem_write m a b c hc with ⟨rfl, hb⟩ | hc
    · exact hb
    · exact h.2 c hc

/-- Placing consecutive bytes keeps the canonical form. -/
theorem Memory.wf_writeBytes (bs : List Byte) (m : Memory) (a : Nat) (h : m.wf) : (m.writeBytes a bs).wf := by
  induction bs generalizing m a with
  | nil => exact h
  | cons b bs ih => exact ih _ _ (Memory.wf_write m a b h)

/-- A read after consecutive bytes were placed: inside them the byte placed, outside what was there. -/
theorem Memory.read_writeBytes (bs : List Byte) (m : Memory) (a i : Nat) (h : m.wf) :
    (m.writeBytes a bs).read i = if a ≤ i ∧ i < a + bs.length then bs[i - a]?.getD 0 else m.read i := by
  induction bs generalizing m a with
  | nil => simp [Memory.writeBytes]
  | cons b bs ih =>
    simp only [Memory.writeBytes]
    rw [ih _ _ (Memory.wf_write m a b h)]
    by_cases h1 : i = a
    · subst h1
      rw [if_neg (by omega), if_pos (by simp)]
      simp [Memory.read_write_same _ _ _ h]
    · rw [Memory.read_write_other _ _ _ _ h h1]
      by_cases h2 : a + 1 ≤ i ∧ i < a + 1 + bs.length
      · rw [if_pos h2, if_pos (by simp; omega), show i - a = (i - (a + 1)) + 1 by omega]
        rfl
      · rw [if_neg h2, if_neg (by simp; omega)]

/-- The memory of the state after reset is in canonical form. -/
theorem State.reset_buf_wf : State.reset.buf.wf := Memory.wf_nil

/-- The memory of a booted state is in canonical form. -/
theorem State.boot_buf_wf (bs : List Byte) (d : Bool) : (State.boot bs d).buf.wf :=
  Memory.wf_writeBytes bs [] 0 Memory.wf_nil

/-- Placing the next instruction keeps the canonical form. -/
theorem State.placeNext_buf_wf (s : State) (bs : List Byte) (h : s.buf.wf) : (s.placeNext bs).buf.wf :=
  Memory.wf_writeBytes bs s.buf s.nextIndex h

end Sys2Proof.Machine
end

