-- ==== Sys2Proof/Laws/PerInstr.lean ====
section
/-! SUPPORT. Statements for all instructions, one lemma per constructor. -/

/-- The encoder writes as many bytes as the instruction's `encodedLength` (R40), and one byte for a variant that has no
length. -/
def Sys2Proof.Laws.EncodeLength.Statement (i : Sys2Proof.Instr) : Prop :=
  (Sys2Proof.encode i).length = i.encodedLength.getD 1

namespace Sys2Proof.Laws.EncodeLength

/-- A mod/rm part's trailing bytes are as many as `bytesConsumed` says. -/
theorem trailing_length (ea : Ea) : ea.trailing.length = ea.bytesConsumed := by
  cases ea <;> rfl

theorem movRmReg (w : Width) (reg : RegField) (ea : Ea) : Statement (.movRmReg w reg ea) := by
  simp only [Statement, encode, Instr.encodedLength, List.length_cons, trailing_length, Option.getD_some]
  omega

theorem movRegRm (w : Width) (reg : RegField) (ea : Ea) : Statement (.movRegRm w reg ea) := by
  simp only [Statement, encode, Instr.encodedLength, List.length_cons, trailing_length, Option.getD_some]
  omega

theorem movReg8Imm8 (reg : RegField) (imm : Byte) : Statement (.movReg8Imm8 reg imm) := rfl
theorem movReg16Imm16 (reg : RegField) (imm : Word16) : Statement (.movReg16Imm16 reg imm) := rfl
theorem movAxAddr8 (addr : Byte) : Statement (.movAxAddr8 addr) := rfl
theorem movAxAddr16 (addr : Word16) : Statement (.movAxAddr16 addr) := rfl
theorem movAddr8Ax (addr : Byte) : Statement (.movAddr8Ax addr) := rfl
theorem movAddr16Ax (addr : Word16) : Statement (.movAddr16Ax addr) := rfl
theorem immediateToRegMemory (x : BitVec 1) : Statement (.immediateToRegMemory x) := rfl
theorem regToSegment : Statement .regToSegment := rfl
theorem segmentToReg : Statement .segmentToReg := rfl

end Sys2Proof.Laws.EncodeLength
end

