-- ==== Sys2Proof/Tests/Slice0.lean ====
section
/-! SUPPORT. The model's own tests: the smoke test of WellFormed, decoding by words written out from the formats of R41
to R43, one step per instruction, the sub-blocks, and a witness for the hypotheses of every statement. Expected results
are the vectors of spec/95_test_vectors.md (S, X, V), or hand-worked from the formats where it says so. -/

namespace Sys2Proof.Tests

open Sys2Proof Sys2Proof.Machine

/-- A run's start over a few bytes. -/
def boot (bytes : List Byte) : State := State.boot bytes false

/-- What a step leaves of the driver state and the output. -/
def after (o : Host.Outcome State Fault Refusal) : Option (DriverState × List Record) :=
  match o with
  | .next t => some (t.st, t.out)
  | .fault _ => none
  | .refused _ => none

def ax : Reg := ⟨.word, 0#3⟩

/-! ### WellFormed -/

theorem test_wf_refuses_bare_bp_destination : (Instr.movRmReg .word 0#3 (.base 6#3)).wf = false := by decide
theorem test_wf_refuses_bare_bp_source : (Instr.movRegRm .byte 7#3 (.base 6#3)).wf = false := by decide
theorem test_wf_accepts_bp_zero : (Instr.movRegRm .word 2#3 (.disp8 6#3 0#8)).wf = true := by decide

/-! ### Decoding, by words from the formats -/

-- S1: 100010 01, 11 011 001
theorem test_decode_movRmReg :
    decode [0b10001001#8, 0b11011001#8] = .ok (.movRmReg .word 3#3 (.register 1#3)) := by decide
-- P2 step 2: 100010 01, 10 011 100, FE FF
theorem test_decode_movRmReg_disp16 :
    decode [0b10001001#8, 0b10011100#8, 0xFE#8, 0xFF#8] = .ok (.movRmReg .word 3#3 (.disp16 4#3 0xFFFE#16)) := by decide
-- V19: 100010 11, 00 000 110, 39 30
theorem test_decode_movRegRm_direct :
    decode [0b10001011#8, 0b00000110#8, 0x39#8, 0x30#8] = .ok (.movRegRm .word 0#3 (.direct 12345#16)) := by decide
-- by hand: 100010 10, 01 111 010, disp8 80
theorem test_decode_movRegRm_disp8 :
    decode [0b10001010#8, 0b01111010#8, 0x80#8] = .ok (.movRegRm .byte 7#3 (.disp8 2#3 0x80#8)) := by decide
-- S2: 1011 0 001, 0C
theorem test_decode_movReg8Imm8 : decode [0b10110001#8, 0x0C#8] = .ok (.movReg8Imm8 1#3 12#8) := by decide
-- V72: 1011 1 111, F4 FF
theorem test_decode_movReg16Imm16 : decode [0b10111111#8, 0xF4#8, 0xFF#8] = .ok (.movReg16Imm16 7#3 65524#16) := by decide
-- V73, V76, V79, V81: 1010000 w and 1010001 w
theorem test_decode_movAxAddr8 : decode [0b10100000#8, 0x0F#8] = .ok (.movAxAddr8 15#8) := by decide
theorem test_decode_movAxAddr16 : decode [0b10100001#8, 0xFB#8, 0x09#8] = .ok (.movAxAddr16 2555#16) := by decide
theorem test_decode_movAddr8Ax : decode [0b10100010#8, 0x0F#8] = .ok (.movAddr8Ax 15#8) := by decide
theorem test_decode_movAddr16Ax : decode [0b10100011#8, 0xFB#8, 0x09#8] = .ok (.movAddr16Ax 2555#16) := by decide
-- V90, V85, V87: known by the opcode byte alone
theorem test_decode_immediateToRegMemory : decode [0b11000111#8] = .ok (.immediateToRegMemory 1#1) := by decide
theorem test_decode_regToSegment : decode [0b10001110#8] = .ok .regToSegment := by decide
theorem test_decode_segmentToReg : decode [0b10001100#8] = .ok .segmentToReg := by decide
-- V91, V113: rejected by name
theorem test_decode_unrecognized : decode [0x90#8] = .error .unrecognizedOpcode := by decide
theorem test_decode_truncated : decode [0xB8#8, 0x34#8] = .error .truncatedStream := by decide
-- by hand: the second byte of a table word is bits 15..8
theorem test_table_word : decodeTableWord 16 0xD989 = some (.movRmReg .word 3#3 (.register 1#3)) := by decide
theorem test_table_word_short : decodeTableWord 8 0xD988 = some (.movRmReg .byte 0#3 (.base 0#3)) := by decide
theorem test_placed_word_runs :
    after (step (State.reset.withFetchWord 8 0x8E)) = some (.fault .unsupportedVariant 0 0x8E#8, []) := by decide

/-! ### One step per instruction -/

-- V54
theorem test_step_movRmReg : after (step (boot [0x89#8, 0x9C#8, 0xFE#8, 0xFF#8])) =
    some (.running 4, [⟨.mov, .memory 4#3 (some (-2)), .register ⟨.word, 3#3⟩, 4⟩]) := by decide
-- V12
theorem test_step_movRmReg_register : after (step (boot [0x88#8, 0xD1#8])) =
    some (.running 2, [⟨.mov, .register ⟨.byte, 1#3⟩, .register ⟨.byte, 2#3⟩, 2⟩]) := by decide
-- V23
theorem test_step_movRegRm : after (step (boot [0x8B#8, 0x36#8, 0x00#8, 0x01#8])) =
    some (.running 4, [⟨.mov, .register ⟨.word, 6#3⟩, .directAddress 256#16, 4⟩]) := by decide
-- V36
theorem test_step_movRegRm_disp8 : after (step (boot [0x8B#8, 0x41#8, 0xFC#8])) =
    some (.running 3, [⟨.mov, .register ax, .memory 1#3 (some (-4)), 3⟩]) := by decide
-- V59
theorem test_step_movReg8Imm8 : after (step (boot [0xB2#8, 0xFF#8])) =
    some (.running 2, [⟨.mov, .register ⟨.byte, 2#3⟩, .immediate 255#16, 2⟩]) := by decide
-- V69
theorem test_step_movReg16Imm16 : after (step (boot [0xBC#8, 0xFF#8, 0x7F#8])) =
    some (.running 3, [⟨.mov, .register ⟨.word, 4#3⟩, .immediate 32767#16, 3⟩]) := by decide
-- V74
theorem test_step_movAxAddr8 : after (step (boot [0xA0#8, 0xFF#8])) =
    some (.running 2, [⟨.mov, .register ax, .directAddress 255#16, 2⟩]) := by decide
-- V78
theorem test_step_movAxAddr16 : after (step (boot [0xA1#8, 0x00#8, 0x01#8])) =
    some (.running 3, [⟨.mov, .register ax, .directAddress 256#16, 3⟩]) := by decide
-- V79
theorem test_step_movAddr8Ax : after (step (boot [0xA2#8, 0x0F#8])) =
    some (.running 2, [⟨.mov, .directAddress 15#16, .register ax, 2⟩]) := by decide
-- V81
theorem test_step_movAddr16Ax : after (step (boot [0xA3#8, 0xFB#8, 0x09#8])) =
    some (.running 3, [⟨.mov, .directAddress 2555#16, .register ax, 3⟩]) := by decide
-- V90
theorem test_step_immediateToRegMemory : after (step (boot [0xC7#8])) =
    some (.fault .unsupportedVariant 0 0xC7#8, []) := by decide
-- V85
theorem test_step_regToSegment : after (step (boot [0x8E#8])) =
    some (.fault .unsupportedVariant 0 0x8E#8, []) := by decide
-- V86
theorem test_step_segmentToReg : after (step (boot [0x8C#8, 0xD8#8])) =
    some (.fault .unsupportedVariant 0 0x8C#8, []) := by decide
-- V108: one byte short inside a displacement
theorem test_step_truncated : after (step (boot [0x8B#8, 0x80#8, 0x01#8])) =
    some (.fault .truncatedStream 0 0x8B#8, []) := by decide
-- V121 step 2: the fault is at 2 and the earlier record stands
theorem test_step_unrecognized :
    after (step { boot [0xB1#8, 0x0C#8, 0x90#8] with
      st := .running 2, out := [⟨.mov, .register ⟨.byte, 1#3⟩, .immediate 12#16, 2⟩] }) =
    some (.fault .unrecognizedOpcode 2 0x90#8, [⟨.mov, .register ⟨.byte, 1#3⟩, .immediate 12#16, 2⟩]) := by decide
-- V119
theorem test_step_empty : after (step (boot [])) = some (.done, []) := by decide

/-! ### The sub-blocks -/

-- X10: all three fields of one byte differ
theorem test_field : field 0x9C#8 0 2 = .ok 2#2 ∧ field 0x9C#8 2 3 = .ok 3#3 ∧ field 0x9C#8 5 3 = .ok 4#3 := by decide
-- X13
theorem test_field_malformed : field 0x9C#8 8 1 = .error .malformedField ∧
    field 0x9C#8 6 3 = .error .malformedField ∧ field 0x9C#8 (-1) 1 = .error .malformedField := by decide
-- X14, X17, X18
theorem test_words : u16 0x39#8 0x30#8 = 12345#16 ∧ s8 0x80#8 = -128 ∧ s8 0x7F#8 = 127 ∧
    s16 0x8000#16 = -32768 ∧ s16 0xFFFE#16 = -2 := by decide
-- X22
theorem test_regId : regId ⟨.byte, 3#3⟩ = 3#4 ∧ regId ⟨.word, 3#3⟩ = 11#4 := by decide
-- X26
theorem test_classify : classify 0x8D#8 = .error .unrecognizedOpcode ∧ classify 0x8E#8 = .ok .regToSegment := by decide
-- X40, X47
theorem test_resolve : resolve 1#2 6#3 .word [0#8] = .ok (.memory 6#3 (some 0), 1) ∧
    resolve 2#2 5#3 .byte [1#8] = .error .truncatedStream := by decide
-- V38: a line with a negative displacement
theorem test_line : line ⟨.mov, .register ax, .memory 1#3 (some (-128)), 3⟩ = "mov ax, [bx+di + -128]" := by decide

/-! ### Memory -/

theorem test_memory_wf : (Memory.writeBytes [] 3 [5#8, 0#8, 7#8]).wf := by decide
theorem test_memory_zero_unlists : Memory.write [(3, 5#8), (4, 1#8)] 3 0#8 = [(4, 1#8)] := by decide

/-! ### Witnesses for the hypotheses of the statements

One for each set of hypotheses; where several statements share one (a running state; a running state with its first
byte; a step that answers a next state), the theorem's name says which. -/

theorem witness_DecodeInvertsEncode : (Instr.movRegRm .word 0#3 (.disp16 6#3 0x8000#16)).wf = true := by decide
theorem witness_EncodeInvertsDecode :
    decode [0x8B#8, 0x46#8, 0#8, 0x90#8] = .ok (.movRegRm .word 0#3 (.disp8 6#3 0#8)) := by decide
theorem witness_FieldReadsBitsFromTheTop : 1 ≤ 3 ∧ 3 ≤ 3 ∧ 5 + 3 ≤ 8 := by decide
theorem witness_FieldOutsideTheByteIsMalformed :
    ((-1 : Int) < 0) ∧ (7 < (8 : Int)) ∧ (7 < (6 : Int) + (2 + 1 : Nat) - 1) := by decide
theorem witness_PatternsMatchLeadingBits : (⟨0b1011, 4, .immediateToReg⟩ : Pattern) ∈ patterns := by decide
theorem witness_ClassifierPolicy_none : ∀ p ∈ patterns, p.fits 0x90#8 = false := by decide
theorem witness_ClassifierPolicy_several :
    1 < ((⟨0b10, 2, .regToSegment⟩ :: patterns).filter (fun p => p.fits 0x88#8)).length := by decide
theorem witness_ClassifierPolicy_one :
    patterns = [] ++ ⟨0b100010, 6, .regToFromReg⟩ :: patterns.tail ∧
    (⟨0b100010, 6, .regToFromReg⟩ : Pattern).fits 0x8B#8 = true ∧
    ∀ q ∈ ([] : List Pattern) ++ patterns.tail, q.fits 0x8B#8 = false := by decide
theorem witness_ClassifierPolicy_order : patterns.Perm patterns.reverse := by decide
theorem witness_PatternTableIsPrefixFree :
    (⟨0b1011, 4, .immediateToReg⟩ : Pattern) ∈ patterns ∧ (⟨0b1010000, 7, .memToAcc⟩ : Pattern) ∈ patterns ∧
    (⟨0b1011, 4, .immediateToReg⟩ : Pattern) ≠ ⟨0b1010000, 7, .memToAcc⟩ ∧ 4 ≤ 7 := by decide
theorem witness_WidthContract : 2 ≤ 2 := by decide
theorem witness_ResolveWithoutBytes : (7#3 : RegField) ≠ 6#3 := by decide
theorem witness_Resolve_two_bytes :
    (boot [0x39#8, 0x30#8]).fetch 0 = some 0x39#8 ∧ (boot [0x39#8, 0x30#8]).fetch (0 + 1) = some 0x30#8 := by decide
theorem witness_Resolve_second_missing :
    (boot [0x39#8]).fetch 0 = some 0x39#8 ∧ (boot [0x39#8]).fetch (0 + 1) = none := by decide
theorem witness_Resolve_none_left : (boot []).fetch 0 = none := by decide
theorem witness_NumeralsAreShortestDecimal : (dec (0 : Nat)).toList.head? = some '0' ∧ 0 < 10 := by decide

/-- The `MovesComplete` statements, `StepRunsTheDecodedInstruction`, and the others over a running state. -/
theorem witness_running : (boot [0x89#8, 0xD9#8]).st = .running 0 := by decide
theorem witness_UnsupportedVariantsEnterFault :
    (boot [0x8E#8]).st = .running 0 ∧ (boot [0x8E#8]).fetch 0 = some 0x8E#8 := by decide
theorem witness_InstructionFrame :
    exec (.movReg8Imm8 1#3 12#8) (boot [0xB1#8, 12#8]) = .next { boot [0xB1#8, 12#8] with
      st := .running 2, out := [⟨.mov, .register ⟨.byte, 1#3⟩, .immediate 12#16, 2⟩] } := rfl
theorem witness_StepRunsTheDecodedInstruction_ok : (boot [0xB1#8, 12#8]).st = .running 0 ∧ 0 < (boot [0xB1#8, 12#8]).len ∧
    decode ((boot [0xB1#8, 12#8]).remaining 0) = .ok (.movReg8Imm8 1#3 12#8) := by decide
theorem witness_StepRunsTheDecodedInstruction_error : (boot [0xB1#8]).st = .running 0 ∧ 0 < (boot [0xB1#8]).len ∧
    decode ((boot [0xB1#8]).remaining 0) = .error .truncatedStream := by decide
/-- `StepRunsTheDecodedInstruction`, third clause, and `FinalStepEndsTheRun`. -/
theorem witness_final_step : (boot []).st = .running 0 ∧ (boot []).len ≤ 0 := by decide
theorem witness_StepsLeaveRunningOnly :
    ({ boot [] with st := .done } : State).st = .done ∧
    ({ boot [0x90#8] with st := .fault .unrecognizedOpcode 0 0x90#8 } : State).st =
      .fault .unrecognizedOpcode 0 0x90#8 := by decide
/-- `OffsetAdvancesExactly`, `RecordCoversItsBytes`, `StepIgnoresHistoryAndDebug`: a step that emits. -/
theorem witness_step_emits : (boot [0xB1#8, 12#8]).st = .running 0 ∧
    step (boot [0xB1#8, 12#8]) = .next { boot [0xB1#8, 12#8] with
      st := .running 2, out := [⟨.mov, .register ⟨.byte, 1#3⟩, .immediate 12#16, 2⟩] } := ⟨rfl, rfl⟩
/-- `OffsetAdvancesExactly`, `FaultEntry`: a step that faults. -/
theorem witness_step_faults :
    step (boot [0x90#8]) = .next { boot [0x90#8] with st := .fault .unrecognizedOpcode 0 0x90#8 } := rfl
theorem witness_RegisterSourceMoveOfTheBytes : (boot [0x89#8, 0x1E#8, 0xFF#8, 0xFF#8]).fetch 0 = some 0x89#8 ∧
    (0x89#8 : Byte) = (0b1000100#7 ++ Width.word.bit : BitVec 8) ∧
    (boot [0x89#8, 0x1E#8, 0xFF#8, 0xFF#8]).fetch (0 + 1) = some 0x1E#8 ∧
    (boot [0x89#8, 0x1E#8, 0xFF#8, 0xFF#8]).resolveAt ((0x1E#8 : Byte).extractLsb' 6 2) ((0x1E#8 : Byte).extractLsb' 0 3)
      .word (0 + 2) = .ok (.directAddress 65535#16, 2) := by decide
theorem witness_RegisterSourceMoveOfTheBytes_truncated : (boot [0x88#8, 0x46#8]).fetch (0 + 1) = some 0x46#8 ∧
    (0x88#8 : Byte) = (0b1000100#7 ++ Width.byte.bit : BitVec 8) ∧ (boot [0x88#8]).fetch (0 + 1) = none ∧
    (boot [0x88#8, 0x46#8]).resolveAt ((0x46#8 : Byte).extractLsb' 6 2) ((0x46#8 : Byte).extractLsb' 0 3) .byte (0 + 2) =
      .error .truncatedStream := by decide
theorem witness_RegisterDestinationMoveOfTheBytes : (boot [0x8A#8, 0x07#8]).fetch 0 = some 0x8A#8 ∧
    (0x8A#8 : Byte) = (0b1000101#7 ++ Width.byte.bit : BitVec 8) ∧ (boot [0x8A#8, 0x07#8]).fetch (0 + 1) = some 0x07#8 ∧
    (boot [0x8A#8, 0x07#8]).resolveAt ((0x07#8 : Byte).extractLsb' 6 2) ((0x07#8 : Byte).extractLsb' 0 3) .byte (0 + 2) =
      .ok (.memory 7#3 none, 0) := by decide
theorem witness_RegisterDestinationMoveOfTheBytes_truncated : (boot [0x8B#8, 0x80#8, 1#8]).fetch (0 + 1) = some 0x80#8 ∧
    (0x8B#8 : Byte) = (0b1000101#7 ++ Width.word.bit : BitVec 8) ∧ (boot [0x8B#8]).fetch (0 + 1) = none ∧
    (boot [0x8B#8, 0x80#8, 1#8]).resolveAt ((0x80#8 : Byte).extractLsb' 6 2) ((0x80#8 : Byte).extractLsb' 0 3) .word
      (0 + 2) = .error .truncatedStream := by decide
theorem witness_ImmediateMoveOfTheBytes_byte :
    (boot [0xB7#8, 0x63#8]).fetch 0 = some (0b10110#5 ++ 7#3 : BitVec 8) ∧
    (boot [0xB7#8, 0x63#8]).fetch (0 + 1) = some 0x63#8 ∧ (boot [0xB7#8]).fetch (0 + 1) = none := by decide
theorem witness_ImmediateMoveOfTheBytes_word :
    (boot [0xB8#8, 0x34#8, 0x12#8]).fetch 0 = some (0b10111#5 ++ 0#3 : BitVec 8) ∧
    (boot [0xB8#8, 0x34#8, 0x12#8]).fetch (0 + 1) = some 0x34#8 ∧
    (boot [0xB8#8, 0x34#8, 0x12#8]).fetch (0 + 2) = some 0x12#8 ∧ (boot [0xB8#8, 0x34#8]).fetch (0 + 2) = none := by decide
theorem witness_AccumulatorMoveOfTheBytes_byte :
    (boot [0xA0#8, 15#8]).fetch 0 = some 0xA0#8 ∧ (boot [0xA2#8, 15#8]).fetch (0 + 1) = some 15#8 ∧
    (boot [0xA2#8]).fetch 0 = some 0xA2#8 ∧ (boot [0xA2#8]).fetch (0 + 1) = none := by decide
theorem witness_AccumulatorMoveOfTheBytes_word :
    (boot [0xA1#8, 0xFB#8, 9#8]).fetch 0 = some 0xA1#8 ∧ (boot [0xA3#8, 0xFB#8, 9#8]).fetch 0 = some 0xA3#8 ∧
    (boot [0xA3#8, 0xFB#8, 9#8]).fetch (0 + 1) = some 0xFB#8 ∧ (boot [0xA3#8, 0xFB#8, 9#8]).fetch (0 + 2) = some 9#8 ∧
    (boot [0xA3#8, 0xFB#8]).fetch (0 + 2) = none := by decide
theorem witness_LengthsFollowTheFirstTwoBytes_fits :
    (boot [0x8B#8, 0x80#8, 0#8, 0x80#8]).fetch 0 = some 0x8B#8 ∧
    (boot [0x8B#8, 0x80#8, 0#8, 0x80#8]).fetch (0 + 1) = some 0x80#8 ∧
    requiredLength 0x8B#8 0x80#8 = some 4 ∧ 0 + 4 ≤ (boot [0x8B#8, 0x80#8, 0#8, 0x80#8]).len := by decide
theorem witness_LengthsFollowTheFirstTwoBytes_short :
    (boot [0x8B#8, 0x80#8, 0#8]).fetch 0 = some 0x8B#8 ∧ (boot [0x8B#8, 0x80#8, 0#8]).fetch (0 + 1) = some 0x80#8 ∧
    requiredLength 0x8B#8 0x80#8 = some 4 ∧ (boot [0x8B#8, 0x80#8, 0#8]).len < 0 + 4 := by decide
theorem witness_LengthsFollowTheFirstTwoBytes_unsupported :
    (boot [0xC6#8]).fetch 0 = some 0xC6#8 ∧ unsupportedByte 0xC6#8 = true := by decide
/-- The three kinds of `ErrorPriority`: a lone `90`, a lone `8E`, a lone `89` (R129). -/
theorem witness_ErrorPriority :
    after (step (boot [0x90#8])) = after (raise .unrecognizedOpcode (boot [0x90#8])) ∧
    after (step (boot [0x8E#8])) = after (raise .unsupportedVariant (boot [0x8E#8])) ∧
    after (step (boot [0x89#8])) = after (raise .truncatedStream (boot [0x89#8])) := by decide
theorem witness_RecordDependsOnItsBytesAlone :
    emitsAt (boot [0xB1#8, 12#8, 0x90#8]) 0 ⟨.mov, .register ⟨.byte, 1#3⟩, .immediate 12#16, 2⟩ ∧
    ∀ k, k < 2 → (boot [0x88#8, 0xC0#8, 0xB1#8, 12#8]).fetch (2 + k) = (boot [0xB1#8, 12#8, 0x90#8]).fetch (0 + k) :=
  ⟨rfl, by decide⟩
theorem witness_ResetHasTheInvariant : bufOk (boot [0xB1#8, 0#8, 0x90#8]) := by decide
theorem witness_StepKeepsTheInvariant : Inv (boot []) ∧ step (boot []) = .next { boot [] with st := .done } :=
  ⟨⟨by decide, Nat.le_refl 0, rfl⟩, rfl⟩
theorem witness_StepKeepsTheInvariant_emits : Inv (boot [0xB1#8, 12#8]) ∧
    step (boot [0xB1#8, 12#8]) = .next { boot [0xB1#8, 12#8] with
      st := .running 2, out := [⟨.mov, .register ⟨.byte, 1#3⟩, .immediate 12#16, 2⟩] } :=
  ⟨⟨by decide, Nat.zero_le _, rfl⟩, rfl⟩
theorem witness_OffsetNeverWraps : fitsOffset 2 (boot [0xB1#8, 12#8]) ∧ (boot [0xB1#8, 12#8]).st = .running 0 ∧
    0 ≤ (boot [0xB1#8, 12#8]).len := by decide
theorem witness_PossibleRecordsAreTheEmittedOnes :
    Record.possible ⟨.mov, .register ax, .memory 6#3 (some 0), 3⟩ = true ∧
    Record.possible ⟨.mov, .register ax, .memory 6#3 none, 2⟩ = false := by decide
-- V120, V122: a run to `Done` and a run to `Fault`
theorem witness_RecordsPartitionTheBuffer_done : (finalState (boot [0x89#8, 0xD9#8, 0x89#8, 0xD9#8])).st = .done := by decide
theorem witness_RecordsPartitionTheBuffer_fault :
    (finalState (boot [0x89#8, 0xD9#8, 0x8B#8, 0x80#8, 1#8])).st = .fault .truncatedStream 2 0x8B#8 := by decide
-- V120, V122: the one record of a failed run has its line
theorem witness_ListingOfARun :
    (finalState (boot [0x89#8, 0xD9#8, 0x8B#8, 0x80#8, 1#8])).out[0]? =
      some ⟨.mov, .register ⟨.word, 1#3⟩, .register ⟨.word, 3#3⟩, 2⟩ ∧
    listing (result (boot [0x89#8, 0xD9#8, 0x8B#8, 0x80#8, 1#8])).1 = ["bits 16", "mov cx, bx"] := by decide
theorem witness_ResultDependsOnTheBufferAlone :
    ∀ i, (boot [0xB1#8, 12#8]).fetch i = ({ boot [0xB1#8, 12#8] with debug := true, st := .done } : State).fetch i :=
  fun _ => rfl
theorem witness_EncodedProgramsRunToDone :
    ∀ i ∈ [Instr.movReg8Imm8 1#3 12#8, .movRegRm .byte 0#3 (.base 7#3)], i.wf = true ∧ i.encodedLength.isSome = true := by
  decide
theorem witness_PlacedWordIsTheNextInstruction :
    State.reset.buf.wf ∧ decodeTableWord 16 0x0CB1 = some (.movReg8Imm8 1#3 12#8) := by decide

end Sys2Proof.Tests
end

section
/-! The bit-field reader BFX (R60, R62): inside the byte a field is a slice of it, and what is known of slices answers. -/

namespace Sys2Proof

/-- Inside the byte, `Field(b, s, n)` is the slice of `n` bits that leaves `8 - s - n` bits below it (R60). -/
theorem field_eq_extractLsb' (b : Byte) {s n : Nat} (hn : 1 ≤ n) (hn3 : n ≤ 3) (hs : s + n ≤ 8) :
    field b s n = .ok (b.extractLsb' (8 - s - n) n) := by
  have inside : 0 ≤ (s : Int) ∧ (s : Int) ≤ 7 ∧ (s : Int) + n - 1 ≤ 7 ∧ 1 ≤ n ∧ n ≤ 3 := by omega
  have below : (8 - (s : Int) - n).toNat = 8 - s - n := by omega
  rw [field, if_pos inside, below, BitVec.extractLsb', Nat.shiftRight_eq_div_pow]

/-- The `n` bits of a vector that begin at index `s` from the top, read from the top, are its bits `s`, `s + 1`, ... -/
theorem getMsbD_slice_from_top {w s n k : Nat} (x : BitVec w) (hs : s + n ≤ w) (hk : k < n) :
    (x.extractLsb' (w - s - n) n).getMsbD k = x.getMsbD (s + k) := by
  have inside : w - s - n + n - k ≤ w := by omega
  have sameIndex : w - (w - s - n + n - k) = s + k := by omega
  simp only [BitVec.getMsbD_extractLsb', hk, inside, sameIndex, decide_true, Bool.true_and]

/-- Settles O4: the field is a slice of the byte, whose value and whose bits from the top are known. -/
theorem fieldReadsBitsFromTheTop : Obligations.FieldReadsBitsFromTheTop := by
  intro b s n hn hn3 hs
  refine ⟨b.extractLsb' (8 - s - n) n, field_eq_extractLsb' b hn hn3 hs, ?_, ?_⟩
  · rw [BitVec.extractLsb'_toNat, Nat.shiftRight_eq_div_pow]
  · exact fun k hk => getMsbD_slice_from_top b hs hk

/-- Settles O6: two bytes leave the 16 bits of the word unwrapped. -/
theorem wordsAreLowByteFirst : Obligations.WordsAreLowByteFirst :=
  fun lo hi => u16_toNat lo hi

end Sys2Proof
end

section
/-! The classifier's match (R72): for a pattern that is a number of `L` bits with `L` at most 8, the quotient that `fits`
compares is the byte's first `L` bits, and what the mask leaves of the byte is that quotient in its place. -/

namespace Sys2Proof

/-- The pattern is a number of `L` bits, of which a byte has the first `L` (R70, R71). -/
def Pattern.IsPrefix (p : Pattern) : Prop := p.length ≤ 8 ∧ p.bits < 2 ^ p.length

theorem patterns_isPrefix : ∀ p ∈ patterns, p.IsPrefix := by
  unfold Pattern.IsPrefix
  decide

theorem Pattern.IsPrefix.pow_mul_pow {p : Pattern} (hp : p.IsPrefix) :
    2 ^ (8 - p.length) * 2 ^ p.length = 2 ^ 8 := by
  rw [← Nat.pow_add, Nat.sub_add_cancel hp.1]

theorem Pattern.fits_iff_div (p : Pattern) (b1 : Byte) :
    p.fits b1 = true ↔ b1.toNat / 2 ^ (8 - p.length) = p.bits := by
  rw [Pattern.fits, beq_iff_eq]

/-! ### The leading bits -/

/-- The slice is written `8 - 0 - L` bits up, as a slice that begins at index 0 from the top. -/
theorem Pattern.fits_iff_slice {p : Pattern} (hp : p.IsPrefix) (b1 : Byte) :
    p.fits b1 = true ↔ b1.extractLsb' (8 - 0 - p.length) p.length = BitVec.ofNat p.length p.bits := by
  have quotientFits : b1.toNat / 2 ^ (8 - p.length) < 2 ^ p.length :=
    Nat.div_lt_of_lt_mul (hp.pow_mul_pow ▸ b1.isLt)
  rw [fits_iff_div, ← BitVec.toNat_inj, BitVec.extractLsb'_toNat, BitVec.toNat_ofNat, Nat.shiftRight_eq_div_pow,
    Nat.sub_zero, Nat.mod_eq_of_lt quotientFits, Nat.mod_eq_of_lt hp.2]

theorem getMsbD_ofNat_eq_testBit {w n k : Nat} (hk : k < w) :
    (BitVec.ofNat w n).getMsbD k = n.testBit (w - 1 - k) := by
  have inside : w - 1 - k < w := by omega
  simp only [BitVec.getMsbD, BitVec.getLsbD_ofNat, hk, inside, decide_true, Bool.true_and]

theorem eq_ofNat_iff_getMsbD {w n : Nat} (x : BitVec w) :
    x = BitVec.ofNat w n ↔ ∀ k, k < w → x.getMsbD k = n.testBit (w - 1 - k) := by
  constructor
  · rintro rfl k hk
    exact getMsbD_ofNat_eq_testBit hk
  · exact fun h => BitVec.eq_of_getMsbD_eq fun k hk => (h k hk).trans (getMsbD_ofNat_eq_testBit hk).symm

theorem Pattern.fits_iff_leading_bits {p : Pattern} (hp : p.IsPrefix) (b1 : Byte) :
    p.fits b1 = true ↔ ∀ k, k < p.length → b1.getMsbD k = p.bits.testBit (p.length - 1 - k) := by
  have inside : 0 + p.length ≤ 8 := (Nat.zero_add _).trans_le hp.1
  rw [fits_iff_slice hp, eq_ofNat_iff_getMsbD]
  refine forall₂_congr fun k hk => ?_
  rw [getMsbD_slice_from_top b1 inside hk, Nat.zero_add]

/-! ### Mask and match -/

theorem mask_eq_allOnes_shiftLeft : ∀ n < 9, BitVec.ofNat 8 (256 - 2 ^ n) = BitVec.allOnes 8 <<< n := by decide

/-- Masking off the low `n` bits of a byte leaves its quotient by `2 ^ n`, in its place. -/
theorem and_mask_toNat (b : Byte) {n : Nat} (hn : n ≤ 8) :
    (b &&& BitVec.ofNat 8 (256 - 2 ^ n)).toNat = b.toNat / 2 ^ n * 2 ^ n := by
  have inByte : b.toNat / 2 ^ n * 2 ^ n < 2 ^ 8 := (Nat.div_mul_le_self _ _).trans_lt b.isLt
  rw [mask_eq_allOnes_shiftLeft n (Nat.lt_succ_of_le hn), ← BitVec.shiftLeft_ushiftRight, BitVec.toNat_shiftLeft,
    BitVec.toNat_ushiftRight, Nat.shiftLeft_eq, Nat.shiftRight_eq_div_pow, Nat.mod_eq_of_lt inByte]

theorem Pattern.fits_iff_mask {p : Pattern} (hp : p.IsPrefix) (b1 : Byte) :
    p.fits b1 = true ↔
      b1 &&& BitVec.ofNat 8 (256 - 2 ^ (8 - p.length)) = BitVec.ofNat 8 (p.bits * 2 ^ (8 - p.length)) := by
  have inByte : p.bits * 2 ^ (8 - p.length) < 2 ^ 8 := by
    rw [← hp.pow_mul_pow, Nat.mul_comm]
    exact Nat.mul_lt_mul_of_pos_left hp.2 (Nat.two_pow_pos _)
  rw [fits_iff_div, ← BitVec.toNat_inj, and_mask_toNat b1 (Nat.sub_le _ _), BitVec.toNat_ofNat,
    Nat.mod_eq_of_lt inByte, Nat.mul_left_inj (Nat.two_pow_pos _).ne']

/-- Settles O8: both forms of the match hold of every prefix of a byte, and the table has no other patterns. -/
theorem patternsMatchLeadingBits : Obligations.PatternsMatchLeadingBits :=
  fun b1 p hp =>
    ⟨Pattern.fits_iff_leading_bits (patterns_isPrefix p hp) b1, Pattern.fits_iff_mask (patterns_isPrefix p hp) b1⟩

end Sys2Proof
end

section
/-! The addressing-mode resolver AMR (R82 to R84): the answer of `resolve` in each of the cases `mod = 11` and `mod = 00`,
over any stream, and what a word read from the rest of the buffer answers in terms of the two fetches. -/

namespace Sys2Proof.Machine

/-! ### The cases of `mod = 11` and `mod = 00` -/

theorem resolve_register (rm : RegField) (w : Width) (rest : List Byte) :
    resolve 3#2 rm w rest = .ok (.register ⟨w, rm⟩, 0) := rfl

theorem resolve_base {rm : RegField} (hrm : rm ≠ 6#3) (w : Width) (rest : List Byte) :
    resolve 0#2 rm w rest = .ok (.memory rm none, 0) := by
  have readsBase : readEa (addressingMode 0#2) rm rest = .ok (.base rm) := if_neg hrm
  rw [resolve, readsBase]
  rfl

/-- Under `mod = 00`, `rm = 110` the word that follows is the address, and its error is the answer's (R84, R88). -/
theorem resolve_direct (w : Width) (rest : List Byte) :
    resolve 0#2 6#3 w rest = (wordAt rest 0).map fun a => (.directAddress a, 2) := by
  have readsWord : readEa (addressingMode 0#2) 6#3 rest = (wordAt rest 0 >>= fun a => .ok (.direct a)) := rfl
  rw [resolve, readsWord]
  cases wordAt rest 0 <;> rfl

/-! ### The word at a buffer index -/

theorem wordAt_remaining_eq_ok {s : State} {p : Nat} {lo hi : Byte}
    (hlo : s.fetch p = some lo) (hhi : s.fetch (p + 1) = some hi) : wordAt (s.remaining p) 0 = .ok (u16 lo hi) := by
  simp only [wordAt_remaining, Nat.add_zero, hlo, hhi]

/-- One byte left fails as none does (R88). -/
theorem wordAt_remaining_eq_error {s : State} {p : Nat} (h : s.fetch p = none ∨ s.fetch (p + 1) = none) :
    wordAt (s.remaining p) 0 = .error .truncatedStream := by
  rw [wordAt_remaining, Nat.add_zero]
  rcases h with noLow | noHigh
  · rw [noLow]
  · rw [noHigh]
    cases s.fetch p <;> rfl

/-! ### The statements -/

/-- Settles O15: the resolver's answer is the word's, and the word is `U16` of the two bytes fetched or is truncated. -/
theorem resolveDirectAddress : Obligations.ResolveDirectAddress := by
  intro s w p
  refine ⟨fun lo hi hlo hhi => ⟨u16 lo hi, u16_toNat lo hi, ?_⟩, fun missing => ?_⟩
  · rw [State.resolveAt, resolve_direct, wordAt_remaining_eq_ok hlo hhi]
    rfl
  · rw [State.resolveAt, resolve_direct, wordAt_remaining_eq_error missing]
    rfl

/-- Settles O14: both answers hold over any stream, so no byte of the buffer enters into them. -/
theorem resolveWithoutBytes : Obligations.ResolveWithoutBytes :=
  ⟨⟨rfl, rfl, rfl, rfl⟩,
    fun s rm w p => resolve_register rm w (s.remaining p),
    fun s _ w p hrm => resolve_base hrm w (s.remaining p)⟩

end Sys2Proof.Machine
end

section
/-! The formatter FMT (R90, R91): what the direction bit selects, and the record of each direction. -/

namespace Sys2Proof

@[simp] theorem direction_one : direction 1#1 = .regIsDestination :=
  if_neg (by decide)

@[simp] theorem direction_zero : direction 0#1 = .regIsSource :=
  if_pos rfl

namespace Machine

@[simp] theorem format_regIsDestination (m : Mnemonic) (regOperand otherOperand : Operand) (n : Nat) :
    format m .regIsDestination regOperand otherOperand n = ⟨m, regOperand, otherOperand, n⟩ := rfl

@[simp] theorem format_regIsSource (m : Mnemonic) (regOperand otherOperand : Operand) (n : Nat) :
    format m .regIsSource regOperand otherOperand n = ⟨m, otherOperand, regOperand, n⟩ := rfl

/-- Settles O19: the bit selects the direction, and each direction's record holds the `reg` operand on the side it names. -/
theorem directionOrdersOperands : Obligations.DirectionOrdersOperands := by
  intro m a b n
  refine ⟨direction_one, direction_zero, ?_⟩
  rw [format_regIsDestination, format_regIsSource]
  exact ⟨rfl, rfl, rfl, rfl⟩

end Machine
end Sys2Proof
end

section
/-! The decode driver DRV (R102): the step that finds no byte left. -/

namespace Sys2Proof.Machine

/-- Settles O29: no byte is left at the offset, so the driver takes the branch that finishes the run. -/
theorem finalStepEndsTheRun : Obligations.FinalStepEndsTheRun :=
  fun _ _ running noByteLeft => step_end running noByteLeft

end Sys2Proof.Machine
end

section
/-! The mod/reg/rm moves (R110, R111) at the bytes: what is left of the buffer at an index, what the decoder reads from a
stream that begins with `100010dw`, and the step there, for both values of `d` at once. -/

namespace Sys2Proof

/-! ### The two field bytes -/

theorem pattern_regIsSource (w : Width) : (0b1000100#7 ++ w.bit : BitVec 8) = opRegToFromReg 0#1 w := by
  cases w <;> rfl

theorem pattern_regIsDestination (w : Width) : (0b1000101#7 ++ w.bit : BitVec 8) = opRegToFromReg 1#1 w := by
  cases w <;> rfl

/-- The three fields of any byte read as a mod/reg/rm byte, as slices (R42). -/
theorem field_modRegRm_slices (b2 : Byte) :
    field b2 0 2 = .ok (b2.extractLsb' 6 2) ∧ field b2 2 3 = .ok (b2.extractLsb' 3 3) ∧
      field b2 5 3 = .ok (b2.extractLsb' 0 3) :=
  ⟨field_eq_extractLsb' b2 (s := 0) (by decide) (by decide) (by decide),
    field_eq_extractLsb' b2 (s := 2) (by decide) (by decide) (by decide),
    field_eq_extractLsb' b2 (s := 5) (by decide) (by decide) (by decide)⟩

/-! ### The stream -/

/-- The mod/reg/rm move of a direction (R91). -/
def regMemMove (d : Direction) (w : Width) (reg : RegField) (ea : Ea) : Instr :=
  match d with
  | .regIsSource => .movRmReg w reg ea
  | .regIsDestination => .movRegRm w reg ea

theorem ok_bind {ε α β : Type} (a : α) (f : α → Except ε β) : (Except.ok a >>= f) = f a := rfl

/-- The opcode byte leaves the second byte to be read, and its own two fields to what follows (R41, R101). -/
theorem decode_opRegToFromReg (d : BitVec 1) (w : Width) (rest : List Byte) :
    decode (opRegToFromReg d w :: rest) = (do
      let b2 ← byteAt rest 0
      let ea ← readEa (addressingMode (b2.extractLsb' 6 2)) (b2.extractLsb' 0 3) (rest.drop 1)
      .ok (regMemMove (direction d) w (b2.extractLsb' 3 3) ea)) := by
  obtain ⟨classified, dField, wField⟩ := opRegToFromReg_fields d w
  have byte1 : byteAt (opRegToFromReg d w :: rest) 0 = .ok (opRegToFromReg d w) := rfl
  have byte2 : byteAt (opRegToFromReg d w :: rest) 1 = byteAt rest 0 := rfl
  simp only [decode, byte1, classified, decodeVariant, decodeRegToFromReg, wField, dField, width_bit, byte2, ok_bind,
    field_modRegRm_slices, List.drop_succ_cons]
  cases direction d <;> rfl

namespace Machine

/-! ### What is left of the buffer -/

theorem State.remaining_eq_cons {s : State} {i : Nat} {b : Byte} (h : s.fetch i = some b) :
    s.remaining i = b :: s.remaining (i + 1) := by
  rw [← State.remaining_drop, List.drop_one]
  refine List.eq_cons_of_mem_head? ?_
  rw [List.head?_eq_getElem?, State.remaining_getElem?]
  exact h

/-! ### The step -/

theorem recordOf_regMemMove (d : Direction) (w : Width) (reg : RegField) (ea : Ea) :
    recordOf (regMemMove d w reg ea) =
      some (format .mov d (regx w reg) (eaOperand w ea) (2 + ea.bytesConsumed)) := by
  cases d <;> rfl

section
variable {s : State} {o : Nat} {d : BitVec 1} {w : Width} {b2 : Byte}

theorem decode_remaining_regToFromReg (byte1 : s.fetch o = some (opRegToFromReg d w)) :
    decode (s.remaining o) = (do
      let b2 ← byteAt (s.remaining (o + 1)) 0
      let ea ← readEa (addressingMode (b2.extractLsb' 6 2)) (b2.extractLsb' 0 3) (s.remaining (o + 2))
      .ok (regMemMove (direction d) w (b2.extractLsb' 3 3) ea)) := by
  rw [State.remaining_eq_cons byte1, decode_opRegToFromReg, State.remaining_drop]

theorem decode_remaining_regToFromReg_of_byte2 (byte1 : s.fetch o = some (opRegToFromReg d w))
    (byte2 : s.fetch (o + 1) = some b2) :
    decode (s.remaining o) = (do
      let ea ← readEa (addressingMode (b2.extractLsb' 6 2)) (b2.extractLsb' 0 3) (s.remaining (o + 2))
      .ok (regMemMove (direction d) w (b2.extractLsb' 3 3) ea)) := by
  rw [decode_remaining_regToFromReg byte1, State.remaining_eq_cons byte2]
  rfl

theorem step_regToFromReg_of_no_byte2 (running : s.st = .running o) (byte1 : s.fetch o = some (opRegToFromReg d w))
    (noByte2 : s.fetch (o + 1) = none) : step s = raise .truncatedStream s := by
  obtain ⟨inBuffer, -⟩ := State.fetch_eq_some.1 byte1
  rw [step_decode running inBuffer, decode_remaining_regToFromReg byte1, byteAt_remaining, Nat.add_zero, noByte2]
  rfl

/-- AMR's only error is `TruncatedStream` (R88), and the step raises it. -/
theorem step_regToFromReg_of_resolveAt_error {k : ErrorKind} (running : s.st = .running o)
    (byte1 : s.fetch o = some (opRegToFromReg d w)) (byte2 : s.fetch (o + 1) = some b2)
    (resolved : s.resolveAt (b2.extractLsb' 6 2) (b2.extractLsb' 0 3) w (o + 2) = .error k) :
    k = .truncatedStream ∧ step s = raise .truncatedStream s := by
  obtain ⟨inBuffer, -⟩ := State.fetch_eq_some.1 byte1
  rcases bind_eq_error resolved with notRead | ⟨ea, -, impossible⟩
  · obtain rfl := readEa_eq_error notRead
    rw [step_decode running inBuffer, decode_remaining_regToFromReg_of_byte2 byte1 byte2, notRead]
    exact ⟨rfl, rfl⟩
  · cases impossible

/-- The `reg` operand and AMR's, in the order of the direction bit, are the record; the advance is its length. -/
theorem step_regToFromReg_of_resolveAt_ok {other : Operand} {n : Nat} (running : s.st = .running o)
    (byte1 : s.fetch o = some (opRegToFromReg d w)) (byte2 : s.fetch (o + 1) = some b2)
    (resolved : s.resolveAt (b2.extractLsb' 6 2) (b2.extractLsb' 0 3) w (o + 2) = .ok (other, n)) :
    step s = complete (format .mov (direction d) (regx w (b2.extractLsb' 3 3)) other (2 + n)) s := by
  obtain ⟨inBuffer, -⟩ := State.fetch_eq_some.1 byte1
  obtain ⟨ea, read, operandOfEa⟩ := bind_eq_ok resolved
  cases operandOfEa
  rw [step_decode running inBuffer, decode_remaining_regToFromReg_of_byte2 byte1 byte2, read, ok_bind]
  show exec (regMemMove _ _ _ ea) s = _
  rw [exec_eq, recordOf_regMemMove]

end

/-! ### The statements -/

/-- Settles O31: `1000100w` is the opcode byte with `d = 0`, whose record has AMR's operand first. -/
theorem registerSourceMoveOfTheBytes : Obligations.RegisterSourceMoveOfTheBytes := by
  rintro s o w _ running byte1 rfl
  rw [pattern_regIsSource] at byte1
  refine ⟨step_regToFromReg_of_no_byte2 running byte1, fun b2 byte2 =>
    ⟨fun k => step_regToFromReg_of_resolveAt_error running byte1 byte2, fun other n resolved => ?_⟩⟩
  rw [step_regToFromReg_of_resolveAt_ok running byte1 byte2 resolved, direction_zero, format_regIsSource,
    complete_running running, regx]

/-- Settles O32: `1000101w` is the opcode byte with `d = 1`, whose record has the `reg` operand first. -/
theorem registerDestinationMoveOfTheBytes : Obligations.RegisterDestinationMoveOfTheBytes := by
  rintro s o w _ running byte1 rfl
  rw [pattern_regIsDestination] at byte1
  refine ⟨step_regToFromReg_of_no_byte2 running byte1, fun b2 byte2 =>
    ⟨fun k => step_regToFromReg_of_resolveAt_error running byte1 byte2, fun other n resolved => ?_⟩⟩
  rw [step_regToFromReg_of_resolveAt_ok running byte1 byte2 resolved, direction_one, format_regIsDestination,
    complete_running running, regx]

end Machine
end Sys2Proof
end

section
/-! Decode and encode agree (R40 to R47): what the decoder reads from a stream with a given opcode byte, then the two
directions, and both at once: the instruction decoded is the well-formed one whose bytes head the stream. -/

namespace Sys2Proof

/-! ### The stream after a byte -/

theorem wordAt_lowHigh_append (v : Word16) (rest : List Byte) : wordAt (lowHigh v ++ rest) 0 = .ok v :=
  congrArg Except.ok (u16_lowHigh v)

/-- A word read at the head of a stream is the two bytes it begins with (R29). -/
theorem lowHigh_isPrefix_of_wordAt {bs : List Byte} {v : Word16} (h : wordAt bs 0 = .ok v) : lowHigh v <+: bs := by
  obtain ⟨lo, hi, low, high, rfl⟩ := wordAt_eq_ok h
  rw [lowHigh_u16]
  match bs, low, high with
  | _ :: _ :: rest, rfl, rfl => exact ⟨rest, rfl⟩

theorem singleton_isPrefix_of_byteAt {bs : List Byte} {b : Byte} (h : byteAt bs 0 = .ok b) : [b] <+: bs := by
  match bs, byteAt_eq_ok h with
  | _ :: rest, rfl => exact ⟨rest, rfl⟩

theorem bind_ok_eq_map {ε α β : Type} (x : Except ε α) (f : α → β) : (x >>= fun a => .ok (f a)) = x.map f := by
  cases x <;> rfl

/-! ### The stream of each opcode byte

`decode_opRegToFromReg` is the first of these. -/

/-- The immediate move of a width, from the data that follow the opcode byte (R45, R112). -/
def readImmediateMove (w : Width) (reg : RegField) (rest : List Byte) : Except ErrorKind Instr :=
  match w with
  | .byte => (byteAt rest 0).map (.movReg8Imm8 reg)
  | .word => (wordAt rest 0).map (.movReg16Imm16 reg)

theorem decode_opImmediateToReg (w : Width) (reg : RegField) (rest : List Byte) :
    decode (opImmediateToReg w reg :: rest) = readImmediateMove w reg rest := by
  obtain ⟨classified, regField, wField⟩ := opImmediateToReg_fields w reg
  have byte1 : byteAt (opImmediateToReg w reg :: rest) 0 = .ok (opImmediateToReg w reg) := rfl
  simp only [decode, byte1, classified, decodeVariant, decodeImmediateToReg, wField, regField, width_bit, ok_bind]
  cases w with
  | byte => exact bind_ok_eq_map (byteAt rest 0) (Instr.movReg8Imm8 reg)
  | word => exact bind_ok_eq_map (wordAt rest 0) (Instr.movReg16Imm16 reg)

theorem decode_A0 (rest : List Byte) : decode (0xA0#8 :: rest) = (byteAt rest 0).map .movAxAddr8 :=
  bind_ok_eq_map (byteAt rest 0) Instr.movAxAddr8

theorem decode_A1 (rest : List Byte) : decode (0xA1#8 :: rest) = (wordAt rest 0).map .movAxAddr16 :=
  bind_ok_eq_map (wordAt rest 0) Instr.movAxAddr16

theorem decode_A2 (rest : List Byte) : decode (0xA2#8 :: rest) = (byteAt rest 0).map .movAddr8Ax :=
  bind_ok_eq_map (byteAt rest 0) Instr.movAddr8Ax

theorem decode_A3 (rest : List Byte) : decode (0xA3#8 :: rest) = (wordAt rest 0).map .movAddr16Ax :=
  bind_ok_eq_map (wordAt rest 0) Instr.movAddr16Ax

theorem decode_immediateToRegMemory (x : BitVec 1) (rest : List Byte) :
    decode ((0b1100011#7 ++ x : BitVec 8) :: rest) = .ok (.immediateToRegMemory x) := by
  have bit : ∀ x : BitVec 1, x = 0#1 ∨ x = 1#1 := by decide
  rcases bit x with rfl | rfl <;> rfl

theorem decode_8E (rest : List Byte) : decode (0x8E#8 :: rest) = .ok .regToSegment := rfl

theorem decode_8C (rest : List Byte) : decode (0x8C#8 :: rest) = .ok .segmentToReg := rfl

/-! ### From the instruction to its bytes and back -/

/-- A mod/reg/rm move is read back from its own fields and trailing bytes, for both directions. -/
theorem decode_regMemMove {ea : Ea} (wf : ea.wf = true) (d : BitVec 1) (w : Width) (reg : RegField)
    (rest : List Byte) :
    decode (opRegToFromReg d w :: modRegRm ea.mod reg ea.rm :: (ea.trailing ++ rest)) =
      .ok (regMemMove (direction d) w reg ea) := by
  obtain ⟨modField, regField, rmField⟩ := field_modRegRm ea.mod reg ea.rm
  obtain ⟨modSlice, regSlice, rmSlice⟩ := field_modRegRm_slices (modRegRm ea.mod reg ea.rm)
  have byte2 : byteAt (modRegRm ea.mod reg ea.rm :: (ea.trailing ++ rest)) 0 = .ok (modRegRm ea.mod reg ea.rm) := rfl
  rw [decode_opRegToFromReg, byte2, ok_bind, ← Except.ok.inj (modField.symm.trans modSlice),
    ← Except.ok.inj (regField.symm.trans regSlice), ← Except.ok.inj (rmField.symm.trans rmSlice), List.drop_one,
    List.tail_cons, readEa_trailing wf, ok_bind]

/-- Settles O1: each constructor's opcode byte selects the reader that takes the operand bytes back. -/
theorem decodeInvertsEncode : Obligations.DecodeInvertsEncode := by
  intro i rest wf
  cases i with
  | movRmReg w reg ea => exact (decode_regMemMove wf 0#1 w reg rest).trans (by rw [direction_zero]; rfl)
  | movRegRm w reg ea => exact (decode_regMemMove wf 1#1 w reg rest).trans (by rw [direction_one]; rfl)
  | movReg8Imm8 reg v => exact decode_opImmediateToReg .byte reg (v :: rest)
  | movReg16Imm16 reg v =>
    exact (decode_opImmediateToReg .word reg _).trans (congrArg (Except.map _) (wordAt_lowHigh_append v rest))
  | movAxAddr8 a => exact decode_A0 (a :: rest)
  | movAxAddr16 a => exact (decode_A1 _).trans (congrArg (Except.map _) (wordAt_lowHigh_append a rest))
  | movAddr8Ax a => exact decode_A2 (a :: rest)
  | movAddr16Ax a => exact (decode_A3 _).trans (congrArg (Except.map _) (wordAt_lowHigh_append a rest))
  | immediateToRegMemory x => exact decode_immediateToRegMemory x rest
  | regToSegment => exact decode_8E rest
  | segmentToReg => exact decode_8C rest

/-! ### From the bytes to the instruction and back -/

/-- The instruction is well formed and its bytes head the stream. -/
def Instr.Heads (i : Instr) (bs : List Byte) : Prop := i.wf = true ∧ encode i <+: bs

theorem map_eq_ok {ε α β : Type} {x : Except ε α} {f : α → β} {b : β} (h : x.map f = .ok b) :
    ∃ a, x = .ok a ∧ f a = b := by
  cases x with
  | error => cases h
  | ok a => exact ⟨a, rfl, Except.ok.inj h⟩

/-- A reader of one operand byte answers an instruction that heads the stream, when its encoding is that byte after the
opcode byte. -/
theorem heads_of_map_byteAt {f : Byte → Instr} {op : Byte} {rest : List Byte} {i : Instr}
    (wf : ∀ v, (f v).wf = true) (encoded : ∀ v, encode (f v) = [op, v]) (h : (byteAt rest 0).map f = .ok i) :
    i.Heads (op :: rest) := by
  obtain ⟨v, read, rfl⟩ := map_eq_ok h
  refine ⟨wf v, ?_⟩
  rw [encoded]
  exact List.cons_prefix_cons.2 ⟨rfl, singleton_isPrefix_of_byteAt read⟩

/-- As `heads_of_map_byteAt`, for an operand word. -/
theorem heads_of_map_wordAt {f : Word16 → Instr} {op : Byte} {rest : List Byte} {i : Instr}
    (wf : ∀ v, (f v).wf = true) (encoded : ∀ v, encode (f v) = op :: lowHigh v) (h : (wordAt rest 0).map f = .ok i) :
    i.Heads (op :: rest) := by
  obtain ⟨v, read, rfl⟩ := map_eq_ok h
  refine ⟨wf v, ?_⟩
  rw [encoded]
  exact List.cons_prefix_cons.2 ⟨rfl, lowHigh_isPrefix_of_wordAt read⟩

/-- Either direction's bytes: the opcode byte with the direction bit, then the mod/rm part (R41, R42). -/
theorem encode_regMemMove (d : BitVec 1) (w : Width) (reg : RegField) (ea : Ea) :
    encode (regMemMove (direction d) w reg ea) = opRegToFromReg d w :: modRegRm ea.mod reg ea.rm :: ea.trailing := by
  have bit : ∀ d : BitVec 1, d = 0#1 ∨ d = 1#1 := by decide
  rcases bit d with rfl | rfl
  · rw [direction_zero]; rfl
  · rw [direction_one]; rfl

theorem regMemMove_wf (d : Direction) (w : Width) (reg : RegField) (ea : Ea) :
    (regMemMove d w reg ea).wf = ea.wf := by
  cases d <;> rfl

theorem heads_of_opRegToFromReg {d : BitVec 1} {w : Width} {rest : List Byte} {i : Instr}
    (h : decode (opRegToFromReg d w :: rest) = .ok i) : i.Heads (opRegToFromReg d w :: rest) := by
  rw [decode_opRegToFromReg] at h
  obtain ⟨b2, byte2, h⟩ := bind_eq_ok h
  obtain ⟨ea, read, answered⟩ := bind_eq_ok h
  cases answered
  obtain ⟨wf, modField, rmField, trailing⟩ := readEa_eq_ok read
  match rest, byteAt_eq_ok byte2 with
  | _ :: rest, rfl =>
    refine ⟨(regMemMove_wf _ _ _ _).trans wf, ?_⟩
    rw [encode_regMemMove, modField, rmField, ← modRegRm_of_byte]
    exact List.cons_prefix_cons.2 ⟨rfl, List.cons_prefix_cons.2 ⟨rfl, List.prefix_iff_eq_take.2 trailing⟩⟩

theorem heads_of_opImmediateToReg {w : Width} {reg : RegField} {rest : List Byte} {i : Instr}
    (h : decode (opImmediateToReg w reg :: rest) = .ok i) : i.Heads (opImmediateToReg w reg :: rest) := by
  rw [decode_opImmediateToReg] at h
  cases w with
  | byte => exact heads_of_map_byteAt (fun _ => rfl) (fun _ => rfl) h
  | word => exact heads_of_map_wordAt (fun _ => rfl) (fun _ => rfl) h

/-- What is decoded heads the stream, by the variant of the first byte. -/
theorem heads_of_decode {bs : List Byte} {i : Instr} (h : decode bs = .ok i) : i.Heads bs := by
  obtain ⟨b1, byte1, classifies⟩ := bind_eq_ok h
  obtain ⟨v, classified, -⟩ := bind_eq_ok classifies
  match bs, byteAt_eq_ok byte1 with
  | _ :: rest, rfl =>
    cases v with
    | regToFromReg =>
      obtain ⟨d, w, rfl⟩ := classify_regToFromReg classified
      exact heads_of_opRegToFromReg h
    | immediateToReg =>
      obtain ⟨w, reg, rfl⟩ := classify_immediateToReg classified
      exact heads_of_opImmediateToReg h
    | memToAcc =>
      rcases classify_memToAcc classified with rfl | rfl
      · exact heads_of_map_byteAt (fun _ => rfl) (fun _ => rfl) ((decode_A0 rest).symm.trans h)
      · exact heads_of_map_wordAt (fun _ => rfl) (fun _ => rfl) ((decode_A1 rest).symm.trans h)
    | accToMem =>
      rcases classify_accToMem classified with rfl | rfl
      · exact heads_of_map_byteAt (fun _ => rfl) (fun _ => rfl) ((decode_A2 rest).symm.trans h)
      · exact heads_of_map_wordAt (fun _ => rfl) (fun _ => rfl) ((decode_A3 rest).symm.trans h)
    | immediateToRegMemory =>
      rw [classify_immediateToRegMemory classified, decode_immediateToRegMemory] at h
      cases h
      refine ⟨rfl, List.cons_prefix_cons.2 ⟨?_, List.nil_prefix⟩⟩
      exact (classify_immediateToRegMemory classified).symm
    | regToSegment =>
      obtain rfl := classify_regToSegment classified
      rw [decode_8E] at h
      cases h
      exact ⟨rfl, rest, rfl⟩
    | segmentToReg =>
      obtain rfl := classify_segmentToReg classified
      rw [decode_8C] at h
      cases h
      exact ⟨rfl, rest, rfl⟩

/-- Settles O2: the instruction heads the stream, so its bytes are what the stream begins with. -/
theorem encodeInvertsDecode : Obligations.EncodeInvertsDecode := by
  intro bs i decoded
  obtain ⟨wf, heads⟩ := heads_of_decode decoded
  exact ⟨wf, List.prefix_iff_eq_take.1 heads⟩

/-- The two directions in one: decoding is finding the well-formed instruction that heads the stream. -/
theorem decode_eq_ok_iff {bs : List Byte} {i : Instr} : decode bs = .ok i ↔ i.Heads bs := by
  refine ⟨heads_of_decode, ?_⟩
  rintro ⟨wf, rest, rfl⟩
  exact decodeInvertsEncode i rest wf

end Sys2Proof
end

section
/-! The length table (R40): what a first byte decides. It is rejected alone, or it has a decode path on which, with the
second byte, it decides how many bytes are read; one byte less is `TruncatedStream`. -/

namespace Sys2Proof

/-! ### Readers that take a number of bytes or are truncated -/

/-- With `available` bytes left, a reader of `n` bytes answers a value with `P` when they are enough, and raises
`TruncatedStream` when they are not (R27, R123). -/
def Reads {α : Type} (n available : Nat) (P : α → Prop) (x : Except ErrorKind α) : Prop :=
  (n ≤ available → ∃ a, x = .ok a ∧ P a) ∧ (available < n → x = .error .truncatedStream)

section
variable {α β : Type} {n available : Nat} {P : α → Prop} {Q : β → Prop} {x : Except ErrorKind α}

theorem Reads.bind {f : α → Except ErrorKind β} (h : Reads n available P x)
    (then_ok : ∀ a, P a → ∃ b, f a = .ok b ∧ Q b) : Reads n available Q (x >>= f) := by
  obtain ⟨enough, short⟩ := h
  refine ⟨fun le => ?_, fun lt => by rw [short lt]; rfl⟩
  obtain ⟨a, rfl, ha⟩ := enough le
  exact then_ok a ha

theorem Reads.map {f : α → β} (h : Reads n available P x) (onValues : ∀ a, P a → Q (f a)) :
    Reads n available Q (x.map f) := by
  rw [← bind_ok_eq_map]
  exact h.bind fun a ha => ⟨f a, rfl, onValues a ha⟩

theorem Reads.add (h : Reads n available P x) (k : Nat) : Reads (n + k) (available + k) P x :=
  ⟨fun le => h.1 (Nat.le_of_add_le_add_right le), fun lt => h.2 (Nat.lt_of_add_lt_add_right lt)⟩

end

theorem byteAt_reads (bs : List Byte) : Reads 1 bs.length (fun _ => True) (byteAt bs 0) :=
  match bs with
  | [] => ⟨fun le => absurd le (by decide), fun _ => rfl⟩
  | b :: _ => ⟨fun _ => ⟨b, rfl, trivial⟩, fun lt => absurd lt (by simp)⟩

theorem wordAt_reads (bs : List Byte) : Reads 2 bs.length (fun _ => True) (wordAt bs 0) :=
  match bs with
  | [] => ⟨fun le => absurd le (by decide), fun _ => rfl⟩
  | [_] => ⟨fun le => absurd le (by simp), fun _ => rfl⟩
  | lo :: hi :: _ => ⟨fun _ => ⟨u16 lo hi, rfl, trivial⟩, fun lt => absurd lt (by simp)⟩

/-- How many bytes AMR reads after the mod/reg/rm byte (R43). -/
def trailingLength (m : AddressingMode) (rm : RegField) : Nat :=
  match m with
  | .registerMode => 0
  | .memoryNoDisplacement => if rm = 6#3 then 2 else 0
  | .memoryDisplacement8 => 1
  | .memoryDisplacement16 => 2

theorem readEa_reads (m : AddressingMode) (rm : RegField) (rest : List Byte) :
    Reads (trailingLength m rm) rest.length (fun ea => ea.bytesConsumed = trailingLength m rm)
      (readEa m rm rest) := by
  cases m with
  | registerMode => exact ⟨fun _ => ⟨_, rfl, rfl⟩, fun lt => absurd lt (Nat.not_lt_zero _)⟩
  | memoryNoDisplacement =>
    by_cases hrm : rm = 6#3
    · subst hrm
      exact (wordAt_reads rest).bind fun a _ => ⟨.direct a, rfl, rfl⟩
    · simp only [trailingLength, readEa, if_neg hrm]
      exact ⟨fun _ => ⟨_, rfl, rfl⟩, fun lt => absurd lt (Nat.not_lt_zero _)⟩
  | memoryDisplacement8 => exact (byteAt_reads rest).bind fun d _ => ⟨.disp8 rm d, rfl, rfl⟩
  | memoryDisplacement16 => exact (wordAt_reads rest).bind fun d _ => ⟨.disp16 rm d, rfl, rfl⟩

namespace Machine

/-! ### The record at the head of a stream -/

/-- The record the block emits at the head of a stream, or the error it raises there: `UnsupportedVariant` where the
instruction decoded has no record (R101, R115 to R117). -/
def readRecord (bs : List Byte) : Except ErrorKind Record := do
  let i ← decode bs
  match recordOf i with
  | some r => .ok r
  | none => .error .unsupportedVariant

section
variable {bs : List Byte} {i : Instr} {r : Record} {k : ErrorKind} {n available : Nat}

theorem readRecord_of_decode_error (h : decode bs = .error k) : readRecord bs = .error k := by
  rw [readRecord, h]
  rfl

theorem readRecord_of_decode_ok (h : decode bs = .ok i) (hr : recordOf i = some r) : readRecord bs = .ok r := by
  rw [readRecord, h, ok_bind, hr]

theorem readRecord_of_unsupported (h : decode bs = .ok i) (hr : recordOf i = none) :
    readRecord bs = .error .unsupportedVariant := by
  rw [readRecord, h, ok_bind, hr]

/-- A record is read exactly where a well-formed instruction with that record heads the stream. -/
theorem readRecord_eq_ok_iff : readRecord bs = .ok r ↔ ∃ i : Instr, i.Heads bs ∧ recordOf i = some r := by
  constructor
  · intro h
    obtain ⟨i, decoded, emitted⟩ := bind_eq_ok h
    refine ⟨i, decode_eq_ok_iff.1 decoded, ?_⟩
    cases hr : recordOf i with
    | none => rw [hr] at emitted; cases emitted
    | some r' => rw [hr] at emitted; cases emitted; rfl
  · rintro ⟨i, heads, hr⟩
    exact readRecord_of_decode_ok (decode_eq_ok_iff.2 heads) hr

theorem recordOf_of_encodedLength (h : i.encodedLength = some n) :
    ∃ r, recordOf i = some r ∧ r.encodedLength = n :=
  Option.map_eq_some_iff.1 ((recordOf_encodedLength i).symm.trans h)

/-- A decoder of instructions of length `n` reads records of length `n`. -/
theorem readRecord_reads (h : Reads n available (fun i => i.encodedLength = some n) (decode bs)) :
    Reads n available (fun r => r.encodedLength = n) (readRecord bs) :=
  h.bind fun i hi => by
    obtain ⟨r, hr, length⟩ := recordOf_of_encodedLength hi
    exact ⟨r, by rw [hr], length⟩

end

/-! ### What a first byte decides -/

/-- The first byte is rejected alone, whatever follows it, and has no length (R125, R126). -/
structure Rejected (b1 : Byte) (k : ErrorKind) : Prop where
  noLength : ∀ b2, requiredLength b1 b2 = none
  read : ∀ rest, readRecord (b1 :: rest) = .error k

/-- The first byte has a decode path: it needs a second byte, and the two decide how many bytes are read (R40). -/
structure Decodable (b1 : Byte) : Prop where
  supported : unsupportedByte b1 = false
  alone : readRecord [b1] = .error .truncatedStream
  read : ∀ b2, ∃ n, requiredLength b1 b2 = some n ∧ 2 ≤ n ∧ n ≤ 4 ∧
    ∀ rest, Reads n (rest.length + 2) (fun r => r.encodedLength = n) (readRecord (b1 :: b2 :: rest))

theorem requiredLength_opRegToFromReg (d : BitVec 1) (w : Width) (b2 : Byte) :
    requiredLength (opRegToFromReg d w) b2 =
      some (trailingLength (addressingMode (b2.extractLsb' 6 2)) (b2.extractLsb' 0 3) + 2) := by
  revert d b2
  cases w <;> decide +kernel

theorem trailingLength_le (m : AddressingMode) (rm : RegField) : trailingLength m rm ≤ 2 := by
  cases m with
  | memoryNoDisplacement =>
    rw [trailingLength]
    split <;> decide
  | registerMode | memoryDisplacement8 | memoryDisplacement16 => simp [trailingLength]

theorem regMemMove_encodedLength (d : Direction) (w : Width) (reg : RegField) (ea : Ea) :
    (regMemMove d w reg ea).encodedLength = some (ea.bytesConsumed + 2) := by
  rw [Nat.add_comm]
  cases d <;> rfl

theorem opRegToFromReg_supported (d : BitVec 1) (w : Width) : unsupportedByte (opRegToFromReg d w) = false := by
  revert d
  cases w <;> decide

theorem opRegToFromReg_decodable (d : BitVec 1) (w : Width) : Decodable (opRegToFromReg d w) where
  supported := opRegToFromReg_supported d w
  alone := readRecord_of_decode_error (decode_opRegToFromReg d w [])
  read b2 := by
    refine ⟨_, requiredLength_opRegToFromReg d w b2, Nat.le_add_left _ _,
      Nat.add_le_add_right (trailingLength_le _ _) 2, fun rest => readRecord_reads ?_⟩
    rw [decode_opRegToFromReg]
    exact ((readEa_reads _ _ rest).add 2).bind fun ea consumed =>
      ⟨_, rfl, (regMemMove_encodedLength _ _ _ ea).trans (by rw [consumed])⟩

/-- A first byte after which the decoder reads `n` bytes, whatever the second is. -/
theorem decodable_of_reads {b1 : Byte} {n : Nat} (supported : unsupportedByte b1 = false)
    (length : ∀ b2, requiredLength b1 b2 = some n) (two : 2 ≤ n) (four : n ≤ 4)
    (reads : ∀ rest, Reads n (rest.length + 1) (fun i => i.encodedLength = some n) (decode (b1 :: rest))) :
    Decodable b1 where
  supported := supported
  alone := readRecord_of_decode_error ((reads []).2 two)
  read b2 := ⟨n, length b2, two, four, fun rest => readRecord_reads (reads (b2 :: rest))⟩

theorem decode_reads_byte {b1 : Byte} {rest : List Byte} {f : Byte → Instr}
    (decoded : decode (b1 :: rest) = (byteAt rest 0).map f) (length : ∀ v, (f v).encodedLength = some 2) :
    Reads 2 (rest.length + 1) (fun i => i.encodedLength = some 2) (decode (b1 :: rest)) :=
  decoded ▸ ((byteAt_reads rest).add 1).map fun v _ => length v

theorem decode_reads_word {b1 : Byte} {rest : List Byte} {f : Word16 → Instr}
    (decoded : decode (b1 :: rest) = (wordAt rest 0).map f) (length : ∀ v, (f v).encodedLength = some 3) :
    Reads 3 (rest.length + 1) (fun i => i.encodedLength = some 3) (decode (b1 :: rest)) :=
  decoded ▸ ((wordAt_reads rest).add 1).map fun v _ => length v

/-- Outside `88` to `8B` the second byte does not enter into the length. -/
theorem requiredLength_of_not_regToFromReg {b1 : Byte} (h : ¬(0x88 ≤ b1.toNat ∧ b1.toNat ≤ 0x8B)) (b2 : Byte) :
    requiredLength b1 b2 = requiredLength b1 0#8 := by
  simp only [requiredLength, if_neg h]

theorem opImmediateToReg_decodable (w : Width) (reg : RegField) : Decodable (opImmediateToReg w reg) := by
  have supported : unsupportedByte (opImmediateToReg w reg) = false := by
    revert reg
    cases w <;> decide
  have notRegToFromReg : ¬(0x88 ≤ (opImmediateToReg w reg).toNat ∧ (opImmediateToReg w reg).toNat ≤ 0x8B) := by
    revert reg
    cases w <;> decide
  have byteLength : ∀ reg, requiredLength (opImmediateToReg .byte reg) 0#8 = some 2 := by decide
  have wordLength : ∀ reg, requiredLength (opImmediateToReg .word reg) 0#8 = some 3 := by decide
  cases w with
  | byte =>
    exact decodable_of_reads supported
      (fun b2 => (requiredLength_of_not_regToFromReg notRegToFromReg b2).trans (byteLength reg)) (by decide) (by decide)
      fun rest => decode_reads_byte (decode_opImmediateToReg .byte reg rest) fun _ => rfl
  | word =>
    exact decodable_of_reads supported
      (fun b2 => (requiredLength_of_not_regToFromReg notRegToFromReg b2).trans (wordLength reg)) (by decide) (by decide)
      fun rest => decode_reads_word (decode_opImmediateToReg .word reg rest) fun _ => rfl

theorem decodable_A0 : Decodable 0xA0#8 :=
  decodable_of_reads (by decide) (fun _ => rfl) (by decide) (by decide) fun rest =>
    decode_reads_byte (decode_A0 rest) fun _ => rfl

theorem decodable_A1 : Decodable 0xA1#8 :=
  decodable_of_reads (by decide) (fun _ => rfl) (by decide) (by decide) fun rest =>
    decode_reads_word (decode_A1 rest) fun _ => rfl

theorem decodable_A2 : Decodable 0xA2#8 :=
  decodable_of_reads (by decide) (fun _ => rfl) (by decide) (by decide) fun rest =>
    decode_reads_byte (decode_A2 rest) fun _ => rfl

theorem decodable_A3 : Decodable 0xA3#8 :=
  decodable_of_reads (by decide) (fun _ => rfl) (by decide) (by decide) fun rest =>
    decode_reads_word (decode_A3 rest) fun _ => rfl

/-- An unsupported first byte is decoded alone, to an instruction without a record (R115 to R117). -/
theorem rejected_of_unsupported {b1 : Byte} {i : Instr} (unsupported : unsupportedByte b1 = true)
    (decoded : ∀ rest, decode (b1 :: rest) = .ok i) (noRecord : recordOf i = none) :
    Rejected b1 .unsupportedVariant where
  noLength := by
    have bytes : ∀ b1 : Byte, unsupportedByte b1 = true →
        ¬(0x88 ≤ b1.toNat ∧ b1.toNat ≤ 0x8B) ∧ requiredLength b1 0#8 = none := by decide +kernel
    obtain ⟨notRegToFromReg, none⟩ := bytes b1 unsupported
    exact fun b2 => (requiredLength_of_not_regToFromReg notRegToFromReg b2).trans none
  read rest := readRecord_of_unsupported (decoded rest) noRecord

theorem rejected_of_unrecognized {b1 : Byte} (h : classify b1 = .error .unrecognizedOpcode) :
    Rejected b1 .unrecognizedOpcode ∧ unsupportedByte b1 = false := by
  have bytes : ∀ b1 : Byte, classify b1 = .error .unrecognizedOpcode → unsupportedByte b1 = false ∧
      ¬(0x88 ≤ b1.toNat ∧ b1.toNat ≤ 0x8B) ∧ requiredLength b1 0#8 = none := by decide +kernel
  obtain ⟨supported, notRegToFromReg, none⟩ := bytes b1 h
  refine ⟨⟨fun b2 => (requiredLength_of_not_regToFromReg notRegToFromReg b2).trans none, fun rest => ?_⟩, supported⟩
  have byte1 : byteAt (b1 :: rest) 0 = .ok b1 := rfl
  exact readRecord_of_decode_error (by rw [decode, byte1, ok_bind, h]; rfl)

/-- The three things a first byte can decide, by its classification (R129). -/
theorem firstByte_cases (b1 : Byte) :
    (Rejected b1 .unrecognizedOpcode ∧ unsupportedByte b1 = false) ∨
    (Rejected b1 .unsupportedVariant ∧ unsupportedByte b1 = true) ∨ Decodable b1 := by
  cases classified : classify b1 with
  | error k =>
    obtain rfl := classify_eq_error classified
    exact .inl (rejected_of_unrecognized classified)
  | ok v =>
    cases v with
    | regToFromReg =>
      obtain ⟨d, w, rfl⟩ := classify_regToFromReg classified
      exact .inr (.inr (opRegToFromReg_decodable d w))
    | immediateToReg =>
      obtain ⟨w, reg, rfl⟩ := classify_immediateToReg classified
      exact .inr (.inr (opImmediateToReg_decodable w reg))
    | memToAcc =>
      rcases classify_memToAcc classified with rfl | rfl
      · exact .inr (.inr decodable_A0)
      · exact .inr (.inr decodable_A1)
    | accToMem =>
      rcases classify_accToMem classified with rfl | rfl
      · exact .inr (.inr decodable_A2)
      · exact .inr (.inr decodable_A3)
    | immediateToRegMemory =>
      have unsupported : ∀ x : BitVec 1, unsupportedByte (0b1100011#7 ++ x) = true := by decide
      rw [classify_immediateToRegMemory classified]
      exact .inr (.inl ⟨rejected_of_unsupported (unsupported _) (decode_immediateToRegMemory _) rfl, unsupported _⟩)
    | regToSegment =>
      obtain rfl := classify_regToSegment classified
      exact .inr (.inl ⟨rejected_of_unsupported rfl decode_8E rfl, rfl⟩)
    | segmentToReg =>
      obtain rfl := classify_segmentToReg classified
      exact .inr (.inl ⟨rejected_of_unsupported rfl decode_8C rfl, rfl⟩)

/-! ### What is read from any stream -/

/-- What is read is an error an input can reach (R61, R66, R74, R120), or a record of 2 to 4 bytes, all of them in the
stream (R13, R40). -/
theorem readRecord_cases (bs : List Byte) :
    (∃ k, readRecord bs = .error k ∧ reachableKind k = true) ∨
    (∃ r, readRecord bs = .ok r ∧ 2 ≤ r.encodedLength ∧ r.encodedLength ≤ 4 ∧ r.encodedLength ≤ bs.length) := by
  match bs with
  | [] => exact .inl ⟨.truncatedStream, rfl, rfl⟩
  | b1 :: rest =>
    rcases firstByte_cases b1 with ⟨rejected, -⟩ | ⟨rejected, -⟩ | decodable
    · exact .inl ⟨_, rejected.read rest, rfl⟩
    · exact .inl ⟨_, rejected.read rest, rfl⟩
    · match rest with
      | [] => exact .inl ⟨_, decodable.alone, rfl⟩
      | b2 :: rest =>
        obtain ⟨n, -, two, four, reads⟩ := decodable.read b2
        obtain ⟨enough, short⟩ := reads rest
        rcases Nat.lt_or_ge (rest.length + 2) n with lt | le
        · exact .inl ⟨_, short lt, rfl⟩
        · obtain ⟨r, read, rfl⟩ := enough le
          exact .inr ⟨r, read, two, four, le⟩

theorem readRecord_length {bs : List Byte} {r : Record} (h : readRecord bs = .ok r) :
    2 ≤ r.encodedLength ∧ r.encodedLength ≤ 4 ∧ r.encodedLength ≤ bs.length := by
  obtain ⟨k, read, -⟩ | ⟨r', read, length⟩ := readRecord_cases bs
  · cases read.symm.trans h
  · cases read.symm.trans h
    exact length

theorem readRecord_error_reachable {bs : List Byte} {k : ErrorKind} (h : readRecord bs = .error k) :
    reachableKind k = true := by
  obtain ⟨k', read, reachable⟩ | ⟨r, read, -⟩ := readRecord_cases bs
  · cases read.symm.trans h
    exact reachable
  · cases read.symm.trans h

end Machine
end Sys2Proof
end

section
/-! A step as one reading of the buffer (R100 to R102): the record at an index, or the error raised there, is what
`readRecord` answers on the bytes that remain. From it follow what a step can do, what it reads, and the errors' order. -/

namespace Sys2Proof.Machine

/-! ### What a step can do -/

section
variable {s s' t : State} {o i i' : Nat} {r : Record} {k : ErrorKind}

theorem State.remaining_congr (h : ∀ j, s'.fetch (i' + j) = s.fetch (i + j)) : s'.remaining i' = s.remaining i := by
  apply List.ext_getElem?
  intro j
  rw [State.remaining_getElem?, State.remaining_getElem?, h]

theorem exec_of_record {i : Instr} (hr : recordOf i = some r) : exec i s = complete r s := by
  rw [exec_eq, hr]

theorem exec_of_no_record {i : Instr} (hr : recordOf i = none) : exec i s = raise .unsupportedVariant s := by
  rw [exec_eq, hr]

theorem step_of_readRecord_error (running : s.st = .running o) (inBuffer : o < s.len)
    (read : readRecord (s.remaining o) = .error k) : step s = raise k s := by
  rw [step_decode running inBuffer]
  rcases bind_eq_error read with notDecoded | ⟨i, decoded, unsupported⟩
  · rw [notDecoded]
  · rw [decoded]
    show exec i s = raise k s
    cases hr : recordOf i with
    | none =>
      rw [hr] at unsupported
      cases unsupported
      exact exec_of_no_record hr
    | some r =>
      rw [hr] at unsupported
      cases unsupported

theorem inBuffer_of_readRecord_ok (read : readRecord (s.remaining o) = .ok r) : o + r.encodedLength ≤ s.len := by
  obtain ⟨two, -, inStream⟩ := readRecord_length read
  rw [State.remaining_length] at inStream
  omega

theorem lt_len_of_readRecord_ok (read : readRecord (s.remaining o) = .ok r) : o < s.len := by
  have := inBuffer_of_readRecord_ok read
  have := (readRecord_length read).1
  omega

theorem step_of_readRecord_ok (running : s.st = .running o) (read : readRecord (s.remaining o) = .ok r) :
    step s = .next { s with st := .running (o + r.encodedLength), out := s.out ++ [r] } := by
  obtain ⟨i, heads, hr⟩ := readRecord_eq_ok_iff.1 read
  rw [step_decode running (lt_len_of_readRecord_ok read), decode_eq_ok_iff.2 heads]
  exact (exec_of_record hr).trans (complete_running running)

/-- Everything a step can do, by what is read: emit the record and advance by its length, enter `Fault` with the error, or
end the run. -/
theorem step_outcomes (h : step s = .next t) :
    ∃ o, s.st = .running o ∧
      ((∃ r, readRecord (s.remaining o) = .ok r ∧
          t = { s with st := .running (o + r.encodedLength), out := s.out ++ [r] }) ∨
       (o < s.len ∧ ∃ k, readRecord (s.remaining o) = .error k ∧
          t = { s with st := .fault k o (s.buf.read o) }) ∨
       (s.len ≤ o ∧ t = { s with st := .done })) := by
  obtain ⟨o, running, ⟨-, i, r, decoded, hr, ht⟩ | ⟨inBuffer, i, decoded, hr, ht⟩ | ⟨inBuffer, k, decoded, ht⟩ | ended⟩ :=
    step_cases h
  · exact ⟨o, running, .inl ⟨r, readRecord_of_decode_ok decoded hr, ht⟩⟩
  · exact ⟨o, running, .inr (.inl ⟨inBuffer, _, readRecord_of_unsupported decoded hr, ht⟩)⟩
  · exact ⟨o, running, .inr (.inl ⟨inBuffer, k, readRecord_of_decode_error decoded, ht⟩)⟩
  · exact ⟨o, running, .inr (.inr ended)⟩

theorem step_frame (h : step s = .next t) :
    t.buf = s.buf ∧ t.len = s.len ∧ t.debug = s.debug ∧ s.out <+: t.out := by
  obtain ⟨o, -, ⟨r, -, rfl⟩ | ⟨-, k, -, rfl⟩ | ⟨-, rfl⟩⟩ := step_outcomes h
  · exact ⟨rfl, rfl, rfl, List.prefix_append _ _⟩
  · exact ⟨rfl, rfl, rfl, List.prefix_refl _⟩
  · exact ⟨rfl, rfl, rfl, List.prefix_refl _⟩

theorem step_of_running (running : s.st = .running o) : ∃ t, step s = .next t := by
  rcases Nat.lt_or_ge o s.len with inBuffer | ended
  · cases read : readRecord (s.remaining o) with
    | ok r => exact ⟨_, step_of_readRecord_ok running read⟩
    | error k => exact ⟨_, (step_of_readRecord_error running inBuffer read).trans (raise_running running)⟩
  · exact ⟨_, step_end running ended⟩

/-! ### Emitting and raising at an index -/

theorem State.remaining_startAt (s : State) (i j : Nat) : (s.startAt i).remaining j = s.remaining j :=
  State.remaining_congr fun _ => rfl

theorem emitsAt_iff : emitsAt s i r ↔ readRecord (s.remaining i) = .ok r := by
  constructor
  · intro emitted
    obtain ⟨o, running, ⟨r', read, ht⟩ | ⟨-, k, -, ht⟩ | ⟨-, ht⟩⟩ := step_outcomes emitted
    · cases running
      have records : [r] = [r'] := congrArg State.out ht
      cases records
      rwa [State.remaining_startAt] at read
    · cases congrArg State.st ht
    · cases congrArg State.st ht
  · intro read
    exact step_of_readRecord_ok (s := s.startAt i) rfl (by rwa [State.remaining_startAt])

theorem raisesAt_of_readRecord (inBuffer : i < s.len) (read : readRecord (s.remaining i) = .error k) :
    raisesAt s i k :=
  step_of_readRecord_error (s := s.startAt i) rfl inBuffer (by rwa [State.remaining_startAt])

/-- In `Running`, with a byte left, the error raised is the one read. -/
theorem step_eq_raise_iff (running : s.st = .running o) (inBuffer : o < s.len) :
    step s = raise k s ↔ readRecord (s.remaining o) = .error k := by
  refine ⟨fun raised => ?_, step_of_readRecord_error running inBuffer⟩
  rw [raise_running running] at raised
  obtain ⟨o', running', ⟨r, -, ht⟩ | ⟨-, k', read, ht⟩ | ⟨-, ht⟩⟩ := step_outcomes raised
  · cases congrArg State.st ht
  · cases running.symm.trans running'
    cases congrArg State.st ht
    exact read
  · cases congrArg State.st ht

end

/-! ### The statements on one step -/

/-- Settles O30: the record read is 2 to 4 bytes long, all of them left in the buffer. -/
theorem offsetAdvancesExactly : Obligations.OffsetAdvancesExactly := by
  intro s t o running h
  obtain ⟨o', running', ⟨r, read, ht⟩ | ⟨inBuffer, k, -, ht⟩ | ended⟩ := step_outcomes h <;>
    cases running.symm.trans running'
  · obtain ⟨two, four, -⟩ := readRecord_length read
    exact .inl ⟨r, ht, by omega, inBuffer_of_readRecord_ok read⟩
  · exact .inr (.inl ⟨inBuffer, k, ht⟩)
  · exact .inr (.inr ended)

/-- Settles O37: of what a step can do only the entry of the error read leaves the state in `Fault`. -/
theorem faultEntry : Obligations.FaultEntry := by
  intro s t k a b h faulted
  obtain ⟨o, running, ⟨r, -, rfl⟩ | ⟨inBuffer, k', read, rfl⟩ | ⟨-, rfl⟩⟩ := step_outcomes h
  · cases faulted
  · cases faulted
    exact ⟨running, State.fetch_eq_some.2 ⟨inBuffer, rfl⟩, rfl, readRecord_error_reachable read⟩
  · cases faulted

/-- Settles O44: the offset after an emitting step is inside the buffer, whose length no step changes, and so is the index
of a faulting step. -/
theorem offsetNeverWraps : Obligations.OffsetNeverWraps := by
  intro W o s t fits running _ h
  obtain ⟨o', running', ⟨r, read, rfl⟩ | ⟨inBuffer, k, -, rfl⟩ | ⟨-, rfl⟩⟩ := step_outcomes h <;>
    cases running.symm.trans running' <;> refine ⟨fits, ?_, ?_⟩
  · rintro _ ⟨⟩
    have inside := inBuffer_of_readRecord_ok read
    obtain ⟨two, -, -⟩ := readRecord_length read
    exact ⟨by omega, inside, Nat.lt_of_le_of_lt inside fits⟩
  · rintro _ _ _ ⟨⟩
  · rintro _ ⟨⟩
  · rintro _ _ _ ⟨⟩
    exact Nat.lt_trans inBuffer fits
  · rintro _ ⟨⟩
  · rintro _ _ _ ⟨⟩

/-- Settles O28: in `Running` each of the three readings has a step, and in a terminal state `whenRunning` has none. -/
theorem stepsLeaveRunningOnly : Obligations.StepsLeaveRunningOnly := by
  refine ⟨rfl, fun s => ⟨fun ⟨t, h⟩ => ?_, fun ⟨o, running⟩ => step_of_running running⟩,
    fun s done => whenRunning_done s _ done, fun s k a b faulted => whenRunning_fault s k a b _ faulted, fun s q h => ?_⟩
  · obtain ⟨o, running, -⟩ := step_outcomes h
    exact ⟨o, running⟩
  · cases hst : s.st with
    | running o =>
      obtain ⟨t, next⟩ := step_of_running hst
      cases next.symm.trans h
    | done => cases (whenRunning_done s _ hst).symm.trans h
    | fault k a b => cases (whenRunning_fault s k a b _ hst).symm.trans h

/-! ### The bytes of the record -/

theorem encode_length (i : Instr) : (encode i).length = i.encodedLength.getD 1 := by
  cases i with
  | movRmReg w reg ea => exact Laws.EncodeLength.movRmReg w reg ea
  | movRegRm w reg ea => exact Laws.EncodeLength.movRegRm w reg ea
  | _ => rfl

theorem encode_length_of_recordOf {i : Instr} {r : Record} (hr : recordOf i = some r) :
    (encode i).length = r.encodedLength := by
  rw [encode_length, recordOf_encodedLength, hr]
  rfl

theorem State.bytesFrom_eq_take (s : State) (i n : Nat) (h : i + n ≤ s.len) :
    s.bytesFrom n i = (s.remaining i).take n := by
  apply List.ext_getElem?
  intro j
  rw [List.getElem?_take, State.remaining_getElem?, State.bytesFrom_getElem?, State.fetch]
  split
  · rw [if_pos (by omega)]
  · rfl

/-- Settles O38: the record is that of a well-formed instruction whose bytes head what remains of the buffer. -/
theorem recordCoversItsBytes : Obligations.RecordCoversItsBytes := by
  intro s t o o' running h running'
  obtain ⟨o₁, running₁, ⟨r, read, rfl⟩ | ⟨-, k, -, rfl⟩ | ⟨-, rfl⟩⟩ := step_outcomes h
  · cases running.symm.trans running₁
    cases running'
    obtain ⟨i, heads, hr⟩ := readRecord_eq_ok_iff.1 read
    have inside := inBuffer_of_readRecord_ok read
    have bytes := (List.prefix_iff_eq_take.1 heads.2)
    rw [encode_length_of_recordOf hr, ← State.bytesFrom_eq_take s o _ inside] at bytes
    have advance : o + r.encodedLength - o = r.encodedLength := Nat.add_sub_cancel_left _ _
    obtain ⟨two, -, -⟩ := readRecord_length read
    refine ⟨i, heads.1, by rw [advance]; exact bytes, by rw [advance, recordOf_encodedLength, hr]; rfl, by omega,
      inside, ?_⟩
    rw [step_decode running (lt_len_of_readRecord_ok read), decode_eq_ok_iff.2 heads]
  · cases running'
  · cases running'

/-- Settles O39: the instruction that heads the one stream heads the other, for its own bytes are all it needs. -/
theorem recordDependsOnItsBytesAlone : Obligations.RecordDependsOnItsBytesAlone := by
  intro s s' i i' r emitted same
  rw [emitsAt_iff, readRecord_eq_ok_iff] at emitted ⊢
  obtain ⟨inst, ⟨wf, heads⟩, hr⟩ := emitted
  refine ⟨inst, ⟨wf, List.prefix_iff_getElem?.2 fun k hk => ?_⟩, hr⟩
  rw [State.remaining_getElem?, same k (encode_length_of_recordOf hr ▸ hk), ← State.remaining_getElem?]
  exact List.prefix_iff_getElem?.1 heads k hk

/-! ### Steps over buffers that read alike -/

theorem len_le_of_fetch_eq {s s' : State} (same : ∀ i, s'.fetch i = s.fetch i) : s'.len ≤ s.len :=
  State.fetch_eq_none.1 ((same s.len).trans (State.fetch_eq_none.2 (Nat.le_refl _)))

/-- A step does the same from any state in the same driver state whose buffer reads alike: what it appends to `out` and the
next driver state do not depend on the rest. -/
theorem step_of_sameBuffer {s s' t : State} (sameSt : s'.st = s.st) (same : ∀ i, s'.fetch i = s.fetch i)
    (h : step s = .next t) :
    ∃ new, t = { s with st := t.st, out := s.out ++ new } ∧
      step s' = .next { s' with st := t.st, out := s'.out ++ new } := by
  obtain ⟨o, running, outcome⟩ := step_outcomes h
  have running' : s'.st = .running o := sameSt.trans running
  have sameStream : s'.remaining o = s.remaining o := State.remaining_congr fun j => same (o + j)
  rcases outcome with ⟨r, read, rfl⟩ | ⟨inBuffer, k, read, rfl⟩ | ⟨ended, rfl⟩
  · exact ⟨[r], rfl, step_of_readRecord_ok running' (sameStream ▸ read)⟩
  · obtain ⟨inBuffer', sameByte⟩ :=
      State.fetch_eq_some.1 ((same o).trans (State.fetch_eq_some.2 ⟨inBuffer, rfl⟩))
    refine ⟨[], by rw [List.append_nil], ?_⟩
    rw [step_of_readRecord_error running' inBuffer' (sameStream ▸ read), raise_running running', sameByte,
      List.append_nil]
  · refine ⟨[], by rw [List.append_nil], ?_⟩
    rw [step_end running' ((len_le_of_fetch_eq same).trans ended), List.append_nil]

/-- Settles O40: a state with another history and debug flag has the same driver state and the same buffer. -/
theorem stepIgnoresHistoryAndDebug : Obligations.StepIgnoresHistoryAndDebug := by
  intro s t out debug h
  obtain ⟨new, ht, step'⟩ := step_of_sameBuffer (s := s) (s' := { s with out := out, debug := debug }) rfl (fun _ => rfl) h
  refine ⟨new, congrArg State.out ht, step'.trans ?_⟩
  rw [ht]

/-! ### Lengths and the order of the errors -/

section
variable {s : State} {o : Nat} {b1 b2 : Byte} {k : ErrorKind}

theorem State.remaining_eq_pair (byte1 : s.fetch o = some b1) (byte2 : s.fetch (o + 1) = some b2) :
    s.remaining o = b1 :: b2 :: s.remaining (o + 2) := by
  rw [State.remaining_eq_cons byte1, State.remaining_eq_cons byte2]

/-- With two bytes of a decode path, the record's length is the table's, or the buffer ends inside it. -/
theorem Decodable.reads_remaining (decodable : Decodable b1) (byte1 : s.fetch o = some b1)
    (byte2 : s.fetch (o + 1) = some b2) :
    ∃ n, requiredLength b1 b2 = some n ∧ 2 ≤ n ∧ n ≤ 4 ∧
      Reads n (s.len - o) (fun r => r.encodedLength = n) (readRecord (s.remaining o)) := by
  obtain ⟨n, length, two, four, reads⟩ := decodable.read b2
  obtain ⟨inBuffer, -⟩ := State.fetch_eq_some.1 byte2
  have streamLength : (s.remaining (o + 2)).length + 2 = s.len - o := by
    rw [State.remaining_length]
    omega
  refine ⟨n, length, two, four, ?_⟩
  rw [State.remaining_eq_pair byte1 byte2, ← streamLength]
  exact reads _

theorem Decodable.readRecord_of_no_byte2 (decodable : Decodable b1) (byte1 : s.fetch o = some b1)
    (noByte2 : s.fetch (o + 1) = none) : readRecord (s.remaining o) = .error .truncatedStream := by
  have ended : s.remaining (o + 1) = [] := by
    rw [← List.length_eq_zero_iff, State.remaining_length, Nat.sub_eq_zero_of_le (State.fetch_eq_none.1 noByte2)]
  rw [State.remaining_eq_cons byte1, ended]
  exact decodable.alone

theorem Rejected.readRecord_remaining (rejected : Rejected b1 k) (byte1 : s.fetch o = some b1) :
    readRecord (s.remaining o) = .error k := by
  rw [State.remaining_eq_cons byte1]
  exact rejected.read _

end

/-- Settles O35: a first byte with a length is on a decode path, and an unsupported one is rejected alone. -/
theorem lengthsFollowTheFirstTwoBytes : Obligations.LengthsFollowTheFirstTwoBytes := by
  intro s o b1 running byte1
  obtain ⟨inBuffer, -⟩ := State.fetch_eq_some.1 byte1
  rcases firstByte_cases b1 with ⟨rejected, supported⟩ | ⟨rejected, -⟩ | decodable
  · refine ⟨fun b2 n _ length => ?_, fun unsupported => ?_⟩
    · cases (rejected.noLength b2).symm.trans length
    · cases supported.symm.trans unsupported
  · refine ⟨fun b2 n _ length => ?_, fun _ => ?_⟩
    · cases (rejected.noLength b2).symm.trans length
    · exact step_of_readRecord_error running inBuffer (rejected.readRecord_remaining byte1)
  · refine ⟨fun b2 n byte2 length => ?_, fun unsupported => ?_⟩
    · obtain ⟨n', length', two, four, enough, short⟩ := decodable.reads_remaining byte1 byte2
      cases length'.symm.trans length
      refine ⟨two, four, fun inside => ?_, fun cut => ?_⟩
      · obtain ⟨r, read, rfl⟩ := enough (by omega)
        exact ⟨r, rfl, step_of_readRecord_ok running read⟩
      · exact step_of_readRecord_error running inBuffer (short (by omega))
    · cases decodable.supported.symm.trans unsupported

/-- On a decode path the error read is `TruncatedStream`, exactly where the buffer ends inside the instruction. -/
theorem Decodable.readRecord_eq_error_iff {s : State} {o : Nat} {b1 : Byte} {k : ErrorKind}
    (decodable : Decodable b1) (byte1 : s.fetch o = some b1) :
    readRecord (s.remaining o) = .error k ↔ k = .truncatedStream ∧
      (s.fetch (o + 1) = none ∨
        ∃ b2 n, s.fetch (o + 1) = some b2 ∧ requiredLength b1 b2 = some n ∧ s.len < o + n) := by
  cases byte2 : s.fetch (o + 1) with
  | none =>
    rw [decodable.readRecord_of_no_byte2 byte1 byte2]
    simp [eq_comm]
  | some b2 =>
    obtain ⟨n, length, two, -, enough, short⟩ := decodable.reads_remaining byte1 byte2
    rcases Nat.lt_or_ge s.len (o + n) with cut | inside
    · rw [short (by omega)]
      simp [length, cut, eq_comm]
    · obtain ⟨r, read, -⟩ := enough (by omega)
      rw [read]
      simp [length, inside]

/-- Settles O36: the error raised is the one read, and the three things a first byte can decide exclude each other. -/
theorem errorPriority : Obligations.ErrorPriority := by
  intro s o b1 k running byte1
  obtain ⟨inBuffer, -⟩ := State.fetch_eq_some.1 byte1
  rw [step_eq_raise_iff running inBuffer]
  rcases firstByte_cases b1 with ⟨rejected, supported⟩ | ⟨rejected, unsupported⟩ | decodable
  · rw [rejected.readRecord_remaining byte1]
    simp [supported, rejected.noLength, eq_comm]
  · rw [rejected.readRecord_remaining byte1]
    simp [unsupported, rejected.noLength, eq_comm]
  · have hasLength : ∀ b2, (requiredLength b1 b2).isSome = true := fun b2 => by
      obtain ⟨n, length, -⟩ := decodable.read b2
      rw [length]
      rfl
    have notNone : ¬∀ b2, requiredLength b1 b2 = none := fun none => by simpa [none] using hasLength 0#8
    rw [decodable.readRecord_eq_error_iff byte1]
    simp [decodable.supported, notNone, hasLength]

end Sys2Proof.Machine
end

section
/-! The invariant of a run (R33): the records emitted partition the bytes they were read from, and each step extends the
partition to where it leaves the offset. -/

namespace Sys2Proof.Machine

/-! ### The partition -/

section
variable {s t : State} {i e m o start : Nat} {r : Record} {rs : List Record} {k : ErrorKind} {b : Byte}

theorem tiles_cons : tiles s i (r :: rs) e ↔ emitsAt s i r ∧ tiles s (i + r.encodedLength) rs e := Iff.rfl

theorem tiles_congr (same : ∀ j, t.remaining j = s.remaining j) (h : tiles s i rs e) : tiles t i rs e := by
  induction rs generalizing i with
  | nil => exact h
  | cons r rs ih =>
    obtain ⟨emitted, rest⟩ := tiles_cons.1 h
    exact ⟨emitsAt_iff.2 (same i ▸ emitsAt_iff.1 emitted), ih rest⟩

theorem tiles_append_singleton (h : tiles s i rs m) (emitted : emitsAt s m r) :
    tiles s i (rs ++ [r]) (m + r.encodedLength) := by
  induction rs generalizing i with
  | nil =>
    obtain rfl : i = m := h
    exact ⟨emitted, rfl⟩
  | cons r' rs ih =>
    obtain ⟨emitted', rest⟩ := tiles_cons.1 h
    exact ⟨emitted', ih rest⟩

/-- Each record takes two bytes or more. -/
theorem tiles_two_mul_length (h : tiles s i rs e) : i + 2 * rs.length ≤ e := by
  induction rs generalizing i with
  | nil => exact Nat.le_of_eq h
  | cons r rs ih =>
    obtain ⟨emitted, rest⟩ := tiles_cons.1 h
    have two := (readRecord_length (emitsAt_iff.1 emitted)).1
    have := ih rest
    rw [List.length_cons]
    omega

theorem startOf_cons_succ (r : Record) (rs : List Record) (k : Nat) :
    startOf (r :: rs) (k + 1) = r.encodedLength + startOf rs k := rfl

/-- The lengths of the records add up to the bytes they partition. -/
theorem tiles_startOf_length (h : tiles s i rs e) : i + startOf rs rs.length = e := by
  induction rs generalizing i with
  | nil => exact h
  | cons r rs ih =>
    obtain ⟨-, rest⟩ := tiles_cons.1 h
    rw [List.length_cons, startOf_cons_succ, ← Nat.add_assoc, ih rest]

/-! ### The invariant -/

theorem step_keeps_fetch (next : step s = .next t) (j : Nat) : t.fetch j = s.fetch j := by
  obtain ⟨sameBuf, sameLen, -, -⟩ := step_frame next
  rw [State.fetch, State.fetch, sameBuf, sameLen]

theorem step_keeps_remaining (next : step s = .next t) (j : Nat) : t.remaining j = s.remaining j :=
  State.remaining_congr fun i => step_keeps_fetch next (j + i)

theorem progressOk_running (h : s.st = .running o) : progressOk s ↔ o ≤ s.len ∧ tiles s 0 s.out o := by
  rw [progressOk, h]

theorem progressOk_done (h : s.st = .done) : progressOk s ↔ tiles s 0 s.out s.len := by
  rw [progressOk, h]

theorem progressOk_fault (h : s.st = .fault k start b) :
    progressOk s ↔ start < s.len ∧ b = s.buf.read start ∧ reachableKind k = true ∧ raisesAt s start k ∧
      tiles s 0 s.out start := by
  rw [progressOk, h]

theorem progressOk_applyReset (s : State) : progressOk s.applyReset :=
  ⟨Nat.zero_le _, rfl⟩

/-- A step over any buffer extends the partition by the record it emits, or ends it at the offset. -/
theorem step_keeps_progressOk (h : progressOk s) (next : step s = .next t) : progressOk t := by
  obtain ⟨o, running, outcome⟩ := step_outcomes next
  obtain ⟨inside, partition⟩ := (progressOk_running running).1 h
  have sameStream := step_keeps_remaining next
  rcases outcome with ⟨r, read, rfl⟩ | ⟨inBuffer, k, read, rfl⟩ | ⟨ended, rfl⟩
  · have extended := tiles_append_singleton partition (emitsAt_iff.2 read)
    exact ⟨inBuffer_of_readRecord_ok (s := s) read, tiles_congr sameStream extended⟩
  · exact ⟨inBuffer, rfl, readRecord_error_reachable read,
      raisesAt_of_readRecord inBuffer ((congrArg readRecord (sameStream o)).trans read),
      tiles_congr sameStream partition⟩
  · obtain rfl : o = s.len := Nat.le_antisymm inside ended
    exact tiles_congr sameStream partition

/-- The buffer holds two bytes or more for each record emitted. -/
theorem progressOk_two_mul_length (h : progressOk s) : 2 * s.out.length ≤ s.len := by
  cases hst : s.st with
  | running o =>
    obtain ⟨inside, partition⟩ := (progressOk_running hst).1 h
    have := tiles_two_mul_length partition
    omega
  | done =>
    have := tiles_two_mul_length ((progressOk_done hst).1 h)
    omega
  | fault k start b =>
    obtain ⟨inBuffer, -, -, -, partition⟩ := (progressOk_fault hst).1 h
    have := tiles_two_mul_length partition
    omega

end

/-- Settles O43: a step leaves the buffer as it is and extends the partition. -/
theorem stepKeepsTheInvariant : Obligations.StepKeepsTheInvariant := by
  intro s t ⟨canonical, progress⟩ next
  obtain ⟨sameBuf, sameLen, -, -⟩ := step_frame next
  refine ⟨?_, step_keeps_progressOk progress next⟩
  rw [bufOk, sameBuf, sameLen]
  exact canonical

/-- Settles O42: reset keeps the buffer, and no record partitions no byte. -/
theorem resetHasTheInvariant : Obligations.ResetHasTheInvariant :=
  ⟨⟨⟨State.reset_buf_wf, fun _ impossible => by cases impossible⟩, Nat.zero_le _, rfl⟩,
    fun s canonical => ⟨⟨canonical, progressOk_applyReset s⟩, rfl⟩⟩

end Sys2Proof.Machine
end

section
/-! Runs (R107, R109, R145): the induction along a run once, then what every run keeps, that it ends, and what its result
depends on. -/

namespace Sys2Proof.Machine

/-! ### The induction along a run -/

section
variable {s t : State} {n : Nat}

theorem run_succ_of_next (next : step s = .next t) : run (n + 1) s = run n t := by
  rw [run, next]

theorem step_ne_next_of_terminal (terminal : s.st.terminal = true) : step s ≠ .next t := by
  intro next
  obtain ⟨o, running, -⟩ := step_outcomes next
  rw [running] at terminal
  cases terminal

theorem run_of_terminal (terminal : s.st.terminal = true) : run n s = s := by
  cases n with
  | zero => rfl
  | succ n =>
    cases hs : step s with
    | next t => exact absurd hs (step_ne_next_of_terminal terminal)
    | fault r => rw [run, hs]
    | refused q => rw [run, hs]

theorem terminal_or_running (s : State) : s.st.terminal = true ∨ ∃ o, s.st = .running o := by
  cases s.st with
  | running o => exact .inr ⟨o, rfl⟩
  | done => exact .inl rfl
  | fault k a b => exact .inl rfl

/-- What every step keeps holds at the end of a run. -/
theorem run_keeps {P : State → Prop} (keeps : ∀ s t, P s → step s = .next t → P t) (h : P s) : P (run n s) := by
  induction n generalizing s with
  | zero => exact h
  | succ n ih =>
    rcases terminal_or_running s with terminal | ⟨o, running⟩
    · rw [run_of_terminal terminal]
      exact h
    · obtain ⟨t, next⟩ := step_of_running running
      rw [run_succ_of_next next]
      exact ih (keeps s t h next)

/-- Each step from `Running` ends the run or uses two bytes of the buffer, so half as many steps as bytes are left, and
one more, end it. -/
theorem run_terminates (fuel : ∀ o, s.st = .running o → o ≤ s.len ∧ s.len < o + 2 * n) :
    (run n s).st.terminal = true := by
  rcases terminal_or_running s with terminal | ⟨o, running⟩
  · rwa [run_of_terminal terminal]
  · induction n generalizing s o with
    | zero =>
      have := fuel o running
      omega
    | succ n ih =>
      obtain ⟨t, next⟩ := step_of_running running
      rw [run_succ_of_next next]
      obtain ⟨o', running', ⟨r, read, rfl⟩ | ⟨-, k, -, rfl⟩ | ⟨-, rfl⟩⟩ := step_outcomes next
      · cases running.symm.trans running'
        have inside := inBuffer_of_readRecord_ok read
        have two := (readRecord_length read).1
        have := fuel o running
        refine ih ?_ _ rfl
        rintro _ ⟨⟩
        exact ⟨inside, by show s.len < _; omega⟩
      · rw [run_of_terminal rfl]
        rfl
      · rw [run_of_terminal rfl]
        rfl

end

/-- Settles O46: every step keeps the buffer and its length, and what it emits stands after what was emitted. -/
theorem emittedRecordsStand : Obligations.EmittedRecordsStand := by
  intro n s
  refine run_keeps (P := fun t => s.out <+: t.out ∧ t.buf = s.buf ∧ t.len = s.len) ?_
    ⟨List.prefix_refl _, rfl, rfl⟩
  rintro t u ⟨grown, sameBuf, sameLen⟩ next
  obtain ⟨buf, len, -, out⟩ := step_frame next
  exact ⟨grown.trans out, buf.trans sameBuf, len.trans sameLen⟩

/-! ### The end of a run from reset -/

theorem finalState_terminal (s : State) : (finalState s).st.terminal = true := by
  refine run_terminates ?_
  rintro _ ⟨⟩
  refine ⟨Nat.zero_le _, ?_⟩
  show s.len < 0 + 2 * (s.len / 2 + 1)
  omega

theorem finalState_len (s : State) : (finalState s).len = s.len := by
  obtain ⟨-, -, sameLen⟩ := emittedRecordsStand (runFuel s) s.applyReset
  exact sameLen

theorem finalState_progressOk (s : State) : progressOk (finalState s) :=
  run_keeps (fun _ _ => step_keeps_progressOk) (progressOk_applyReset s)

theorem finalState_out_length (s : State) : (finalState s).out.length ≤ s.len / 2 := by
  have := progressOk_two_mul_length (finalState_progressOk s)
  have := finalState_len s
  omega

theorem errorCode_ne_zero (k : ErrorKind) : errorCode k ≠ 0#3 := by
  cases k <;> decide

theorem successful_iff_code {d : DriverState} (terminal : d.terminal = true) :
    d.successful = true ↔ d.code = 0#3 := by
  cases d with
  | running o => cases terminal
  | done => decide
  | fault k a b => exact ⟨nofun, fun zero => absurd zero (errorCode_ne_zero k)⟩

/-- Settles O47: two bytes for each record, and as many steps as the fuel allows end the run. -/
theorem everyRunEnds : Obligations.EveryRunEnds :=
  fun s => ⟨finalState_terminal s, finalState_out_length s, successful_iff_code (finalState_terminal s)⟩

/-- Settles O55: a run ends in `Done` or `Fault`, and its listing is the header before the lines of its records. -/
theorem listingOfARun : Obligations.ListingOfARun := by
  intro s
  have length : (listing (result s).1).length = (finalState s).out.length + 1 := by
    rw [listing, List.length_cons, List.length_map, result]
  refine ⟨?_, rfl, length, ?_, fun k r hr => ?_⟩
  · have terminal := finalState_terminal s
    cases hst : (finalState s).st with
    | running o => rw [hst] at terminal; cases terminal
    | done => exact .inl rfl
    | fault k a b => exact .inr ⟨k, a, b, rfl⟩
  · rw [length]
    exact Nat.add_le_add_right (finalState_out_length s) 1
  · rw [listing, List.getElem?_cons_succ, List.getElem?_map, result, hr]
    rfl

/-! ### Every byte in exactly one record -/

section
variable {rs : List Record} {r : Record} {i k k' : Nat}

theorem startOf_succ (h : rs[k]? = some r) : startOf rs (k + 1) = startOf rs k + r.encodedLength := by
  obtain ⟨inList, rfl⟩ := List.getElem?_eq_some_iff.1 h
  simp [startOf, List.sum_take_succ, inList]

theorem startOf_mono (h : k ≤ k') : startOf rs k ≤ startOf rs k' :=
  ((List.take_prefix_take_left h).map Record.encodedLength).sublist.sum_le_sum fun _ _ => Nat.zero_le _

/-- Below the sum of the lengths there is a record that holds the byte. -/
theorem exists_record_at (h : i < startOf rs rs.length) :
    ∃ k r, rs[k]? = some r ∧ startOf rs k ≤ i ∧ i < startOf rs k + r.encodedLength := by
  induction rs generalizing i with
  | nil => exact absurd h (Nat.not_lt_zero i)
  | cons r rs ih =>
    rcases Nat.lt_or_ge i r.encodedLength with inFirst | past
    · exact ⟨0, r, rfl, Nat.zero_le i, (Nat.zero_add _).symm ▸ inFirst⟩
    · rw [List.length_cons, startOf_cons_succ] at h
      obtain ⟨k, r', hr', low, high⟩ := ih (i := i - r.encodedLength) (by omega)
      refine ⟨k + 1, r', hr', ?_, ?_⟩ <;> rw [startOf_cons_succ] <;> omega

/-- A record that holds a byte ends before the later ones begin. -/
theorem not_lt_of_holds (hr : rs[k]? = some r) (high : i < startOf rs k + r.encodedLength)
    (low' : startOf rs k' ≤ i) : ¬k < k' := by
  intro lt
  have := startOf_mono (rs := rs) (Nat.succ_le_of_lt lt)
  rw [Nat.succ_eq_add_one, startOf_succ hr] at this
  omega

end

/-- Settles O48: the records of the final state add up to the end of what they partition, and of two records that hold a
byte neither is before the other. -/
theorem recordsPartitionTheBuffer : Obligations.RecordsPartitionTheBuffer := by
  intro s e ends
  have progress := finalState_progressOk s
  have sameLen := finalState_len s
  have faultInBuffer : ∀ k b, (finalState s).st = .fault k e b → e < s.len := fun k b faulted => by
    obtain ⟨inBuffer, -⟩ := (progressOk_fault faulted).1 progress
    omega
  have partition : tiles (finalState s) 0 (finalState s).out e := by
    rcases ends with ⟨done, rfl⟩ | ⟨k, b, faulted⟩
    · exact sameLen ▸ (progressOk_done done).1 progress
    · obtain ⟨-, -, -, -, partition⟩ := (progressOk_fault faulted).1 progress
      exact partition
  have sum : startOf (finalState s).out (finalState s).out.length = e :=
    (Nat.zero_add _).symm.trans (tiles_startOf_length partition)
  refine ⟨faultInBuffer, sum, fun i hi => ?_⟩
  obtain ⟨k, r, hr, low, high⟩ := exists_record_at (sum.symm ▸ hi)
  refine ⟨k, ⟨r, hr, low, high⟩, fun k' r' hr' low' high' => ?_⟩
  exact Nat.le_antisymm (Nat.not_lt.1 (not_lt_of_holds hr high low'))
    (Nat.not_lt.1 (not_lt_of_holds hr' high' low))

/-! ### What a result depends on -/

/-- Two states that differ at most in the debug flag and in how the buffer is written down. -/
structure Alike (s s' : State) : Prop where
  st : s'.st = s.st
  out : s'.out = s.out
  fetch : ∀ i, s'.fetch i = s.fetch i

theorem Alike.run {s s' : State} (h : Alike s s') (n : Nat) :
    (run n s').st = (run n s).st ∧ (run n s').out = (run n s).out := by
  induction n generalizing s s' with
  | zero => exact ⟨h.st, h.out⟩
  | succ n ih =>
    rcases terminal_or_running s with terminal | ⟨o, running⟩
    · rw [run_of_terminal terminal, run_of_terminal (h.st ▸ terminal)]
      exact ⟨h.st, h.out⟩
    · obtain ⟨t, next⟩ := step_of_running running
      obtain ⟨new, ht, next'⟩ := step_of_sameBuffer h.st h.fetch next
      rw [run_succ_of_next next, run_succ_of_next next', ht]
      exact ih ⟨rfl, congrArg (· ++ new) h.out, h.fetch⟩

/-- Settles O49: after reset the two states are alike, and they have the same fuel. -/
theorem resultDependsOnTheBufferAlone : Obligations.ResultDependsOnTheBufferAlone := by
  intro s s' same
  have sameLen : s.len = s'.len :=
    Nat.le_antisymm (len_le_of_fetch_eq same) (len_le_of_fetch_eq fun i => (same i).symm)
  have alike : Alike s'.applyReset s.applyReset := ⟨rfl, rfl, same⟩
  obtain ⟨st, out⟩ := alike.run (runFuel s)
  rw [result, result, finalState, finalState, st, out, runFuel, runFuel, sameLen]

end Sys2Proof.Machine
end

section
/-! The buffer a run starts with (R141, log entry 5) reads back as placed; a program's encodings placed there run to `Done`
(30_encoding.md section 5), and a table word placed at the next index is the next instruction. -/

namespace Sys2Proof.Machine

/-! ### The booted buffer -/

/-- Every entry after consecutive bytes were placed is at one of their addresses or was there before. -/
theorem Memory.mem_writeBytes {bs : List Byte} {m : Memory} {a : Nat} {c : Host.Cell} (h : c ∈ m.writeBytes a bs) :
    c.1 < a + bs.length ∨ c ∈ m := by
  induction bs generalizing m a with
  | nil => exact .inr h
  | cons b bs ih =>
    rw [List.length_cons]
    rcases ih h with below | written
    · exact .inl (by omega)
    · rcases Memory.mem_write m a b c written with ⟨rfl, -⟩ | before
      · exact .inl (by show a < _; omega)
      · exact .inr before

theorem State.boot_fetch (bs : List Byte) (debug : Bool) (i : Nat) : (State.boot bs debug).fetch i = bs[i]? := by
  rw [State.fetch, State.boot_len, State.boot_buf]
  split
  · rename_i inBuffer
    rw [Memory.read_writeBytes bs [] 0 i Memory.wf_nil, if_pos ⟨Nat.zero_le i, by omega⟩, Nat.sub_zero,
      List.getElem?_eq_getElem inBuffer, Option.getD_some]
  · rename_i ended
    exact (List.getElem?_eq_none (Nat.not_lt.1 ended)).symm

theorem State.boot_remaining (bs : List Byte) (debug : Bool) : (State.boot bs debug).remaining 0 = bs := by
  apply List.ext_getElem?
  intro j
  rw [State.remaining_getElem?, State.boot_fetch, Nat.zero_add]

theorem State.boot_bufOk (bs : List Byte) (debug : Bool) : bufOk (State.boot bs debug) := by
  refine ⟨State.boot_buf_wf bs debug, fun c placed => ?_⟩
  rcases Memory.mem_writeBytes placed with below | impossible
  · rwa [Nat.zero_add] at below
  · cases impossible

/-- Settles O51: a read of the placed memory gives the byte placed, and every entry lies below the length. -/
theorem bootedBufferReadsBack : Obligations.BootedBufferReadsBack :=
  fun bs debug =>
    ⟨State.boot_fetch bs debug, State.boot_bufOk bs debug, State.boot_remaining bs debug, State.boot_st bs debug,
      State.boot_out bs debug⟩

/-! ### A placed program -/

theorem emits_of_record {i : Instr} {r : Record} (hr : recordOf i = some r) : emits i r :=
  fun _ _ running => (exec_of_record hr).trans (complete_running running)

theorem exists_recordOf {i : Instr} (h : i.encodedLength.isSome = true) : ∃ r, recordOf i = some r := by
  obtain ⟨n, length⟩ := Option.isSome_iff_exists.1 h
  obtain ⟨r, hr, -⟩ := recordOf_of_encodedLength length
  exact ⟨r, hr⟩

theorem readRecord_encode_append {i : Instr} {r : Record} (wf : i.wf = true) (hr : recordOf i = some r)
    (rest : List Byte) : readRecord (encode i ++ rest) = .ok r :=
  readRecord_eq_ok_iff.2 ⟨i, ⟨wf, List.prefix_append _ _⟩, hr⟩

theorem two_mul_length_le_program {is : List Instr} (h : ∀ i ∈ is, i.wf = true ∧ i.encodedLength.isSome = true) :
    2 * is.length ≤ (is.flatMap encode).length := by
  induction is with
  | nil => exact Nat.le_refl 0
  | cons i is ih =>
    obtain ⟨⟨wf, hasLength⟩, rest⟩ := List.forall_mem_cons.1 h
    obtain ⟨r, hr⟩ := exists_recordOf hasLength
    have two := (readRecord_length (readRecord_encode_append wf hr [])).1
    have := ih rest
    rw [List.flatMap_cons, List.length_append, encode_length_of_recordOf hr, List.length_cons]
    omega

/-- Where the encodings of a program remain, and no more, a run with a step for each instruction and one for the end emits
their records in order and ends in `Done`. -/
theorem run_program {is : List Instr} (h : ∀ i ∈ is, i.wf = true ∧ i.encodedLength.isSome = true) {s : State} {o n : Nat}
    (running : s.st = .running o) (program : s.remaining o = is.flatMap encode) (fuel : is.length < n) :
    ∃ rs, List.Forall₂ (fun i r => recordOf i = some r) is rs ∧
      run n s = { s with st := .done, out := s.out ++ rs } := by
  obtain ⟨n, rfl⟩ : ∃ m, n = m + 1 := ⟨n - 1, by omega⟩
  induction is generalizing s o n with
  | nil =>
    have ended : s.len ≤ o := by
      have := congrArg List.length program
      rw [State.remaining_length] at this
      exact Nat.le_of_sub_eq_zero this
    refine ⟨[], .nil, ?_⟩
    rw [run_succ_of_next (step_end running ended), run_of_terminal rfl, List.append_nil]
  | cons i is ih =>
    obtain ⟨⟨wf, hasLength⟩, rest⟩ := List.forall_mem_cons.1 h
    obtain ⟨r, hr⟩ := exists_recordOf hasLength
    rw [List.flatMap_cons] at program
    have next := step_of_readRecord_ok running ((congrArg readRecord program).trans (readRecord_encode_append wf hr _))
    have remaining := (step_keeps_remaining next (o + r.encodedLength)).trans
      ((State.remaining_drop s o r.encodedLength).symm.trans
        (by rw [program, ← encode_length_of_recordOf hr, List.drop_left]))
    rw [List.length_cons] at fuel
    obtain ⟨m, rfl⟩ : ∃ m, n = m + 1 := ⟨n - 1, by omega⟩
    obtain ⟨rs, records, ran⟩ := ih rest rfl remaining m (by omega)
    refine ⟨r :: rs, .cons hr records, ?_⟩
    rw [run_succ_of_next next, ran, List.append_assoc]
    rfl

/-- Settles O50: the placed bytes are what remains at index 0, and half as many steps as they are, and one more, suffice. -/
theorem encodedProgramsRunToDone : Obligations.EncodedProgramsRunToDone := by
  intro is debug h
  have enough := two_mul_length_le_program h
  obtain ⟨rs, records, ran⟩ := run_program h (n := runFuel (State.boot (is.flatMap encode) debug))
    (State.boot_st _ debug) (State.boot_remaining _ debug) (by rw [runFuel, State.boot_len]; omega)
  have final : finalState (State.boot (is.flatMap encode) debug) =
      { State.boot (is.flatMap encode) debug with st := .done, out := rs } := ran
  rw [result, final]
  exact ⟨rfl, records.imp fun _ _ => emits_of_record⟩

/-- Settles O52: the first step finds no byte left, and the empty program has no record. -/
theorem emptyBufferEndsAtOnce : Obligations.EmptyBufferEndsAtOnce := by
  intro debug
  obtain ⟨done, records⟩ := encodedProgramsRunToDone [] debug (by simp)
  have ended : result (State.boot [] debug) = ([], .done) := Prod.ext (List.forall₂_nil_left_iff.1 records) done
  refine ⟨step_end (State.boot_st [] debug) (Nat.le_refl 0), ended, ?_⟩
  rw [ended]
  rfl

/-! ### A placed word -/

theorem State.placeNext_remaining (s : State) (bs : List Byte) (canonical : s.buf.wf) :
    bs <+: (s.placeNext bs).remaining s.nextIndex := by
  refine List.prefix_iff_getElem?.2 fun k hk => ?_
  rw [State.remaining_getElem?]
  refine State.fetch_eq_some.2 ⟨?_, ?_⟩
  · rw [State.placeNext_len]
    omega
  · rw [State.placeNext_buf, Memory.read_writeBytes bs s.buf _ _ canonical, if_pos (by omega), Nat.add_sub_cancel_left,
      List.getElem?_eq_getElem hk, Option.getD_some]

theorem decode_of_isPrefix {bs bs' : List Byte} {i : Instr} (h : decode bs = .ok i) (longer : bs <+: bs') :
    decode bs' = .ok i := by
  obtain ⟨wf, heads⟩ := decode_eq_ok_iff.1 h
  exact decode_eq_ok_iff.2 ⟨wf, heads.trans longer⟩

/-- Settles O53: the word's bytes head what remains at the next index, and the bytes after them do not change what is
decoded. -/
theorem placedWordIsTheNextInstruction : Obligations.PlacedWordIsTheNextInstruction := by
  intro s nbits w i canonical decoded
  have word : decode (tableBytes nbits w) = .ok i := by
    rw [decodeTableWord] at decoded
    cases read : decode (tableBytes nbits w) with
    | error k => rw [read] at decoded; cases decoded
    | ok j => rw [read] at decoded; cases decoded; rfl
  have inBuffer : s.nextIndex < (s.withFetchWord nbits w).len := by
    show s.nextIndex < max s.len (s.nextIndex + 4)
    omega
  have running : (s.withFetchWord nbits w).st = .running s.nextIndex := State.placeNext_st s _
  rw [step_decode running inBuffer]
  have placed := decode_of_isPrefix word (State.placeNext_remaining s (tableBytes nbits w) canonical)
  rw [State.withFetchWord, placed]

end Sys2Proof.Machine
end

section
/-! The signed readings (R46, R63), the resolver's displacements (R85, R86), and the records the block can emit (R24). -/

namespace Sys2Proof

/-! ### Two's complement -/

theorem s8_eq_toInt (b : Byte) : s8 b = b.toInt := by
  rw [s8, BitVec.toInt_eq_toNat_cond]
  split <;> split <;> omega

theorem s16_eq_toInt (v : Word16) : s16 v = v.toInt := by
  rw [s16, BitVec.toInt_eq_toNat_cond]
  split <;> split <;> omega

/-- Settles O7: both readings subtract the full range from the upper half. -/
theorem signedReadingsAreTwosComplement : Obligations.SignedReadingsAreTwosComplement :=
  ⟨s8_eq_toInt, s16_eq_toInt⟩

theorem s8_bounds (b : Byte) : -128 ≤ s8 b ∧ s8 b ≤ 127 := by
  have := b.isLt
  rw [s8]
  split <;> omega

theorem s16_bounds (v : Word16) : -32768 ≤ s16 v ∧ s16 v ≤ 32767 := by
  have := v.isLt
  rw [s16]
  split <;> omega

theorem exists_s8 {d : Int} (low : -128 ≤ d) (high : d ≤ 127) : ∃ b, s8 b = d := by
  refine ⟨BitVec.ofInt 8 d, ?_⟩
  rw [s8_eq_toInt]
  exact BitVec.toInt_ofInt_eq_self (by decide) low (Int.lt_add_one_of_le high)

theorem exists_s16 {d : Int} (low : -32768 ≤ d) (high : d ≤ 32767) : ∃ v, s16 v = d := by
  refine ⟨BitVec.ofInt 16 d, ?_⟩
  rw [s16_eq_toInt]
  exact BitVec.toInt_ofInt_eq_self (by decide) low (Int.lt_add_one_of_le high)

/-- A byte extended by its sign keeps its value (R46). -/
theorem s16_signExtend (d : Byte) : s16 (d.signExtend 16) = s8 d := by
  rw [s16_eq_toInt, s8_eq_toInt, BitVec.toInt_signExtend_of_le (by decide)]

namespace Machine

/-! ### The cases of `mod = 01` and `mod = 10` -/

theorem resolve_disp8 (rm : RegField) (w : Width) (rest : List Byte) :
    resolve 1#2 rm w rest = (byteAt rest 0).map fun d => (.memory rm (some (s8 d)), 1) := by
  have readsByte : readEa (addressingMode 1#2) rm rest = (byteAt rest 0).map (.disp8 rm) :=
    bind_ok_eq_map (byteAt rest 0) (Ea.disp8 rm)
  rw [resolve, readsByte]
  cases byteAt rest 0 <;> rfl

theorem resolve_disp16 (rm : RegField) (w : Width) (rest : List Byte) :
    resolve 2#2 rm w rest = (wordAt rest 0).map fun d => (.memory rm (some (s16 d)), 2) := by
  have readsWord : readEa (addressingMode 2#2) rm rest = (wordAt rest 0).map (.disp16 rm) :=
    bind_ok_eq_map (wordAt rest 0) (Ea.disp16 rm)
  rw [resolve, readsWord]
  cases wordAt rest 0 <;> rfl

section
variable {s : State} {p : Nat} {b : Byte}

theorem byteAt_remaining_eq_ok (h : s.fetch p = some b) : byteAt (s.remaining p) 0 = .ok b := by
  rw [byteAt_remaining, Nat.add_zero, h]

theorem byteAt_remaining_eq_error (h : s.fetch p = none) : byteAt (s.remaining p) 0 = .error .truncatedStream := by
  rw [byteAt_remaining, Nat.add_zero, h]

end

/-- Settles O16: the resolver's displacement is the signed byte that follows, or its error is the fetch's. -/
theorem resolveDisplacementOfOneByte : Obligations.ResolveDisplacementOfOneByte := by
  intro s rm w p
  refine ⟨fun b byte => ?_, fun missing => ?_⟩
  · rw [State.resolveAt, resolve_disp8, byteAt_remaining_eq_ok byte]
    rfl
  · rw [State.resolveAt, resolve_disp8, byteAt_remaining_eq_error missing]
    rfl

/-- Settles O17: the resolver's displacement is the signed word that follows, or its error is the fetches'. -/
theorem resolveDisplacementOfTwoBytes : Obligations.ResolveDisplacementOfTwoBytes := by
  intro s rm w p
  refine ⟨fun lo hi low high => ?_, fun missing => ?_⟩
  · rw [State.resolveAt, resolve_disp16, wordAt_remaining_eq_ok low high, ← u16_toNat]
    rfl
  · rw [State.resolveAt, resolve_disp16, wordAt_remaining_eq_error missing]
    rfl

/-- Settles O18: the displacement is the signed reading, whose range is known and which sign extension keeps. -/
theorem displacementIsASignedInteger : Obligations.DisplacementIsASignedInteger := by
  intro w rm
  refine ⟨rfl, fun d => ?_, fun lo hi => ?_, fun _ => rfl, fun _ => rfl⟩
  · obtain ⟨low, high⟩ := s8_bounds d
    refine ⟨s8 d, low, high, s8_eq_toInt d, rfl, ?_⟩
    rw [eaOperand, s16_signExtend]
  · obtain ⟨low, high⟩ := s16_bounds (u16 lo hi)
    exact ⟨s16 (u16 lo hi), low, high, s16_eq_toInt (u16 lo hi), rfl⟩

/-! ### The records the block can emit -/

theorem zeroExtend_toNat (b : Byte) : (b.zeroExtend 16).toNat = b.toNat :=
  BitVec.toNat_setWidth_of_le (by decide)

theorem zeroExtend_toNat_lt (b : Byte) : (b.zeroExtend 16).toNat < 256 :=
  (zeroExtend_toNat b).trans_lt b.isLt

/-- A word below 256 is a byte extended by zeros (D9, D10). -/
theorem exists_zeroExtend {v : Word16} (small : v.toNat < 256) : ∃ b : Byte, b.zeroExtend 16 = v := by
  refine ⟨v.setWidth 8, BitVec.eq_of_toNat_eq ?_⟩
  rw [zeroExtend_toNat, BitVec.toNat_setWidth, Nat.mod_eq_of_lt small]

/-- What can stand beside the designator `r` in a record of `n` bytes: a mod/rm part, an address beside the accumulator,
or, where `r` is the destination, an immediate of its width. -/
inductive Beside (r : Reg) (isDestination : Bool) : Operand → Nat → Prop
  | ea (ea : Ea) (wf : ea.wf = true) : Beside r isDestination (eaOperand r.w ea) (2 + ea.bytesConsumed)
  | address8 (a : Byte) (ax : accumulator = .register r) : Beside r isDestination (address8 a) 2
  | address16 (a : Word16) (ax : accumulator = .register r) : Beside r isDestination (address16 a) 3
  | immediate8 (v : Byte) (isByte : r.w = .byte) (dest : isDestination = true) : Beside r isDestination (immediate8 v) 2
  | immediate16 (v : Word16) (isWord : r.w = .word) (dest : isDestination = true) :
      Beside r isDestination (immediate16 v) 3

theorem pairOk_of_beside {r : Reg} {isDestination : Bool} {other : Operand} {n : Nat}
    (h : Beside r isDestination other n) : pairOk r isDestination other n = true := by
  cases h with
  | ea ea wf =>
    cases ea with
    | register rm => simp [eaOperand, regx, pairOk, Ea.bytesConsumed]
    | base rm =>
      have : rm ≠ 6#3 := by simpa [Ea.wf] using wf
      simp [eaOperand, pairOk, Ea.bytesConsumed, this]
    | direct a => simp [eaOperand, pairOk, Ea.bytesConsumed]
    | disp8 rm d => simp [eaOperand, pairOk, Ea.bytesConsumed, s8_bounds d]
    | disp16 rm d => simp [eaOperand, pairOk, Ea.bytesConsumed, s16_bounds d]
  | address8 a ax => simpa [Machine.address8, pairOk, ax] using zeroExtend_toNat_lt a
  | address16 a ax => simp [Machine.address16, pairOk, ax]
  | immediate8 v isByte dest => simpa [Machine.immediate8, pairOk, isByte, dest] using zeroExtend_toNat_lt v
  | immediate16 v isWord dest => simp [Machine.immediate16, pairOk, isWord, dest]

theorem beside_of_pairOk {r : Reg} {isDestination : Bool} {other : Operand} {n : Nat}
    (h : pairOk r isDestination other n = true) : Beside r isDestination other n := by
  cases other with
  | register q =>
    obtain ⟨sameWidth, rfl⟩ : q.w = r.w ∧ n = 2 := by simpa [pairOk] using h
    obtain ⟨w, f⟩ := q
    obtain rfl : w = r.w := sameWidth
    exact .ea (.register f) rfl
  | memory rm disp =>
    cases disp with
    | none =>
      obtain ⟨notBp, rfl⟩ : rm ≠ 6#3 ∧ n = 2 := by simpa [pairOk] using h
      exact .ea (.base rm) (by simpa [Ea.wf] using notBp)
    | some d =>
      have cases : (n = 3 ∧ -128 ≤ d ∧ d ≤ 127) ∨ (n = 4 ∧ -32768 ≤ d ∧ d ≤ 32767) := by
        simpa [pairOk, and_assoc] using h
      rcases cases with ⟨rfl, low, high⟩ | ⟨rfl, low, high⟩
      · obtain ⟨b, rfl⟩ := exists_s8 low high
        exact .ea (.disp8 rm b) rfl
      · obtain ⟨v, rfl⟩ := exists_s16 low high
        exact .ea (.disp16 rm v) rfl
  | directAddress a =>
    have cases : n = 4 ∨ (accumulator = .register r ∧ ((n = 2 ∧ a.toNat < 256) ∨ n = 3)) := by
      simpa [pairOk] using h
    rcases cases with rfl | ⟨ax, ⟨rfl, small⟩ | rfl⟩
    · exact .ea (.direct a) rfl
    · obtain ⟨b, rfl⟩ := exists_zeroExtend small
      exact .address8 b ax
    · exact .address16 a ax
  | immediate v =>
    obtain ⟨w, f⟩ := r
    cases w with
    | byte =>
      obtain ⟨dest, rfl, small⟩ : isDestination = true ∧ n = 2 ∧ v.toNat < 256 := by simpa [pairOk] using h
      obtain ⟨b, rfl⟩ := exists_zeroExtend small
      exact .immediate8 b rfl dest
    | word =>
      obtain ⟨dest, rfl⟩ : isDestination = true ∧ n = 3 := by simpa [pairOk] using h
      exact .immediate16 v rfl dest

theorem possible_of_beside_destination {d : Reg} {other : Operand} {n : Nat} (h : Beside d true other n) :
    Record.possible ⟨.mov, .register d, other, n⟩ = true :=
  pairOk_of_beside h

/-- Of two designators either can be taken as the one the other stands beside. -/
theorem possible_register_source (q : Reg) (other : Operand) (n : Nat) :
    Record.possible ⟨.mov, other, .register q, n⟩ = pairOk q false other n := by
  cases other with
  | register d => exact congrArg (· && n == 2) (Bool.beq_comm)
  | memory | directAddress | immediate => rfl

theorem possible_of_beside_source {q : Reg} {other : Operand} {n : Nat} (h : Beside q false other n) :
    Record.possible ⟨.mov, other, .register q, n⟩ = true :=
  (possible_register_source q other n).trans (pairOk_of_beside h)

theorem possible_of_recordOf {i : Instr} {r : Record} (wf : i.wf = true) (hr : recordOf i = some r) :
    r.possible = true := by
  cases i with
  | movRmReg w reg ea => cases hr; exact possible_of_beside_source (.ea ea wf)
  | movRegRm w reg ea => cases hr; exact possible_of_beside_destination (.ea ea wf)
  | movReg8Imm8 reg v => cases hr; exact possible_of_beside_destination (.immediate8 v rfl rfl)
  | movReg16Imm16 reg v => cases hr; exact possible_of_beside_destination (.immediate16 v rfl rfl)
  | movAxAddr8 a => cases hr; exact possible_of_beside_destination (.address8 a rfl)
  | movAxAddr16 a => cases hr; exact possible_of_beside_destination (.address16 a rfl)
  | movAddr8Ax a => cases hr; exact possible_of_beside_source (.address8 a rfl)
  | movAddr16Ax a => cases hr; exact possible_of_beside_source (.address16 a rfl)
  | immediateToRegMemory x => cases hr
  | regToSegment => cases hr
  | segmentToReg => cases hr

theorem exists_instr_of_register_destination {d : Reg} {other : Operand} {n : Nat} (h : Beside d true other n) :
    ∃ i : Instr, i.wf = true ∧ recordOf i = some ⟨.mov, .register d, other, n⟩ := by
  obtain ⟨w, f⟩ := d
  cases h with
  | ea ea wf => exact ⟨.movRegRm w f ea, wf, rfl⟩
  | address8 a ax => exact ⟨.movAxAddr8 a, rfl, by rw [← ax]; rfl⟩
  | address16 a ax => exact ⟨.movAxAddr16 a, rfl, by rw [← ax]; rfl⟩
  | immediate8 v isByte => obtain rfl : w = .byte := isByte; exact ⟨.movReg8Imm8 f v, rfl, rfl⟩
  | immediate16 v isWord => obtain rfl : w = .word := isWord; exact ⟨.movReg16Imm16 f v, rfl, rfl⟩

theorem exists_instr_of_register_source {q : Reg} {other : Operand} {n : Nat} (h : Beside q false other n) :
    ∃ i : Instr, i.wf = true ∧ recordOf i = some ⟨.mov, other, .register q, n⟩ := by
  obtain ⟨w, f⟩ := q
  cases h with
  | ea ea wf => exact ⟨.movRmReg w f ea, wf, rfl⟩
  | address8 a ax => exact ⟨.movAddr8Ax a, rfl, by rw [← ax]; rfl⟩
  | address16 a ax => exact ⟨.movAddr16Ax a, rfl, by rw [← ax]; rfl⟩
  | immediate8 v isByte dest => cases dest
  | immediate16 v isWord dest => cases dest

/-- The possible records are those of the well-formed instructions. -/
theorem possible_iff {r : Record} : r.possible = true ↔ ∃ i : Instr, i.wf = true ∧ recordOf i = some r := by
  refine ⟨fun possible => ?_, fun ⟨i, wf, hr⟩ => possible_of_recordOf wf hr⟩
  obtain ⟨⟨⟩, destination, source, n⟩ := r
  cases destination with
  | register d => exact exists_instr_of_register_destination (beside_of_pairOk possible)
  | memory | directAddress | immediate =>
    cases source with
    | register q => exact exists_instr_of_register_source (beside_of_pairOk possible)
    | memory | directAddress | immediate => cases possible

/-- Settles O45: an instruction's record is emitted from a buffer of its own bytes, and what is emitted is the record of an
instruction. -/
theorem possibleRecordsAreTheEmittedOnes : Obligations.PossibleRecordsAreTheEmittedOnes := by
  intro r
  rw [possible_iff]
  constructor
  · rintro ⟨i, wf, hr⟩
    have read : readRecord ((State.boot (encode i) false).remaining 0) = .ok r := by
      rw [State.boot_remaining, ← List.append_nil (encode i)]
      exact readRecord_encode_append wf hr []
    exact ⟨_, _, step_of_readRecord_ok (State.boot_st _ _) read, rfl⟩
  · rintro ⟨s, t, next, emitted⟩
    obtain ⟨o, -, ⟨r', read, rfl⟩ | ⟨-, k, -, rfl⟩ | ⟨-, rfl⟩⟩ := step_outcomes next
    · cases List.append_cancel_left emitted
      obtain ⟨i, ⟨wf, -⟩, hr⟩ := readRecord_eq_ok_iff.1 read
      exact ⟨i, wf, hr⟩
    · cases List.self_eq_append_right.1 emitted
    · cases List.self_eq_append_right.1 emitted

end Machine
end Sys2Proof
end

section
/-! The meanings of the instructions (R110 to R117) and the steps that run them: the immediate and accumulator moves at the
bytes, from the reader of the operand that follows the opcode byte. -/

namespace Sys2Proof.Machine

/-! ### The meanings -/

section
variable {s : State} {o : Nat}

/-- A meaning with a record, written by the record's fields, completes. -/
theorem exec_running {i : Instr} {m : Mnemonic} {destination source : Operand} {n : Nat} (running : s.st = .running o)
    (hr : recordOf i = some ⟨m, destination, source, n⟩) :
    exec i s = .next { s with st := .running (o + n), out := s.out ++ [⟨m, destination, source, n⟩] } :=
  (exec_of_record hr).trans (complete_running running)

theorem exec_unsupported {i : Instr} {b1 : Byte} (running : s.st = .running o) (byte1 : s.fetch o = some b1)
    (hr : recordOf i = none) : exec i s = .next { s with st := .fault .unsupportedVariant o b1 } := by
  obtain ⟨-, rfl⟩ := State.fetch_eq_some.1 byte1
  exact (exec_of_no_record hr).trans (raise_running running)

end

/-- Settles O22: the two directions have a record for every mod/rm part. -/
theorem registerMemoryMovesComplete : Obligations.RegisterMemoryMovesComplete :=
  fun _ _ _ _ _ running => ⟨exec_running running rfl, exec_running running rfl⟩

/-- Settles O23: both widths have a record, and the byte's immediate is the byte extended by zeros. -/
theorem immediateMovesComplete : Obligations.ImmediateMovesComplete :=
  fun _ _ _ running =>
    ⟨fun v => ⟨v.zeroExtend 16, zeroExtend_toNat v, exec_running running rfl⟩, fun _ => exec_running running rfl⟩

/-- Settles O24: all four forms have a record, and the one-byte address is the byte extended by zeros. -/
theorem accumulatorMovesComplete : Obligations.AccumulatorMovesComplete :=
  fun _ _ running =>
    ⟨fun a => ⟨a.zeroExtend 16, zeroExtend_toNat a, exec_running running rfl, exec_running running rfl⟩,
      fun _ => ⟨exec_running running rfl, exec_running running rfl⟩⟩

/-- Settles O25: the three variants have no record. -/
theorem unsupportedVariantsEnterFault : Obligations.UnsupportedVariantsEnterFault :=
  fun _ _ _ _ running byte1 =>
    ⟨exec_unsupported running byte1 rfl, exec_unsupported running byte1 rfl, exec_unsupported running byte1 rfl⟩

theorem whenRunning_ne_refused {s : State} {k : Nat → Host.Outcome State Fault Refusal} {q : Refusal}
    (h : ∀ o, k o ≠ .refused q) : whenRunning s k ≠ .refused q := by
  cases hst : s.st with
  | running o => rw [whenRunning_running s o k hst]; exact h o
  | done => rw [whenRunning_done s k hst]; nofun
  | fault e a b => rw [whenRunning_fault s e a b k hst]; nofun

/-- Settles O26: an instruction completes with its record, which has its length, or raises and has none. -/
theorem instructionFrame : Obligations.InstructionFrame := by
  intro i s
  have length := recordOf_encodedLength i
  cases hr : recordOf i with
  | some r =>
    rw [hr] at length
    rw [exec_of_record hr]
    refine ⟨fun t next => ?_, fun q => whenRunning_ne_refused nofun⟩
    obtain ⟨o, -, rfl⟩ := complete_next next
    exact ⟨rfl, rfl, rfl, fun _ => rfl, .inr ⟨r, length, rfl⟩⟩
  | none =>
    rw [hr] at length
    rw [exec_of_no_record hr]
    refine ⟨fun t next => ?_, fun q => whenRunning_ne_refused nofun⟩
    obtain ⟨o, -, rfl⟩ := raise_next next
    exact ⟨rfl, rfl, rfl, fun _ => rfl, .inl ⟨length, rfl⟩⟩

/-! ### The step that runs them -/

/-- Settles O27: the step decodes what remains, and with no byte left is the final step. -/
theorem stepRunsTheDecodedInstruction : Obligations.StepRunsTheDecodedInstruction := by
  intro s o running
  refine ⟨fun inBuffer i decoded => ?_, fun inBuffer k notDecoded => ?_, fun ended => ?_⟩
  · rw [step_decode running inBuffer, decoded]
  · rw [step_decode running inBuffer, notDecoded]
  · rw [step_end running ended, finish_running running]

section
variable {s : State} {o : Nat} {b1 lo hi : Byte}

theorem decode_remaining_of_byte1 {x : List Byte → Except ErrorKind Instr} (byte1 : s.fetch o = some b1)
    (decoded : ∀ rest, decode (b1 :: rest) = x rest) : decode (s.remaining o) = x (s.remaining (o + 1)) := by
  rw [State.remaining_eq_cons byte1, decoded]

/-- The step at an opcode byte whose operand is the byte that follows it, with the record of each operand. -/
theorem step_of_operand_byte {f : Byte → Instr} {g : Byte → Record} (running : s.st = .running o)
    (byte1 : s.fetch o = some b1) (decoded : ∀ rest, decode (b1 :: rest) = (byteAt rest 0).map f)
    (record : ∀ v, recordOf (f v) = some (g v)) :
    (s.fetch (o + 1) = none → step s = raise .truncatedStream s) ∧
    (∀ lo, s.fetch (o + 1) = some lo →
      step s = .next { s with st := .running (o + (g lo).encodedLength), out := s.out ++ [g lo] }) := by
  obtain ⟨inBuffer, -⟩ := State.fetch_eq_some.1 byte1
  obtain ⟨runs, raises, -⟩ := stepRunsTheDecodedInstruction s o running
  have decodes := decode_remaining_of_byte1 byte1 decoded
  refine ⟨fun missing => raises inBuffer _ ?_, fun lo byte2 => ?_⟩
  · rw [decodes, byteAt_remaining_eq_error missing]
    rfl
  · rw [byteAt_remaining_eq_ok byte2] at decodes
    exact (runs inBuffer _ decodes).trans (exec_running running (record lo))

/-- As `step_of_operand_byte`, for an operand word. -/
theorem step_of_operand_word {f : Word16 → Instr} {g : Word16 → Record} (running : s.st = .running o)
    (byte1 : s.fetch o = some b1) (decoded : ∀ rest, decode (b1 :: rest) = (wordAt rest 0).map f)
    (record : ∀ v, recordOf (f v) = some (g v)) :
    (s.fetch (o + 1) = none ∨ s.fetch (o + 2) = none → step s = raise .truncatedStream s) ∧
    (∀ lo hi, s.fetch (o + 1) = some lo → s.fetch (o + 2) = some hi →
      step s = .next
        { s with st := .running (o + (g (u16 lo hi)).encodedLength), out := s.out ++ [g (u16 lo hi)] }) := by
  obtain ⟨inBuffer, -⟩ := State.fetch_eq_some.1 byte1
  obtain ⟨runs, raises, -⟩ := stepRunsTheDecodedInstruction s o running
  have decodes := decode_remaining_of_byte1 byte1 decoded
  refine ⟨fun missing => raises inBuffer _ ?_, fun lo hi byte2 byte3 => ?_⟩
  · rw [decodes, wordAt_remaining_eq_error missing]
    rfl
  · rw [wordAt_remaining_eq_ok byte2 byte3] at decodes
    exact (runs inBuffer _ decodes).trans (exec_running running (record (u16 lo hi)))

end

theorem pattern_immediateByte : ∀ reg : RegField, (0b10110#5 ++ reg : BitVec 8) = opImmediateToReg .byte reg := by
  decide

theorem pattern_immediateWord : ∀ reg : RegField, (0b10111#5 ++ reg : BitVec 8) = opImmediateToReg .word reg := by
  decide

theorem zeroExtend_eq_ofNat (b : Byte) : b.zeroExtend 16 = BitVec.ofNat 16 b.toNat :=
  (BitVec.ofNat_toNat 16 b).symm

/-- Settles O33: the data that follow `1011 w reg` are the operand. -/
theorem immediateMoveOfTheBytes : Obligations.ImmediateMoveOfTheBytes := by
  intro s o reg running
  refine ⟨fun byte1 => ?_, fun byte1 => ?_⟩
  · rw [pattern_immediateByte] at byte1
    obtain ⟨truncated, complete⟩ :=
      step_of_operand_byte running byte1 (decode_opImmediateToReg .byte reg) fun _ => rfl
    refine ⟨truncated, fun lo byte2 => (complete lo byte2).trans ?_⟩
    rw [immediate8, zeroExtend_eq_ofNat]
    rfl
  · rw [pattern_immediateWord] at byte1
    exact step_of_operand_word running byte1 (decode_opImmediateToReg .word reg) fun _ => rfl

/-- Settles O34: the address that follows `A0` to `A3` is the operand, and `d` is told by the opcode byte. -/
theorem accumulatorMoveOfTheBytes : Obligations.AccumulatorMoveOfTheBytes := by
  intro s o b1 running byte1
  refine ⟨fun isByte => ?_, fun isWord => ?_⟩
  · simp only [← zeroExtend_eq_ofNat]
    rcases isByte with rfl | rfl
    · exact step_of_operand_byte running byte1 decode_A0 fun _ => rfl
    · exact step_of_operand_byte running byte1 decode_A2 fun _ => rfl
  · rcases isWord with rfl | rfl
    · exact step_of_operand_word running byte1 decode_A1 fun _ => rfl
    · exact step_of_operand_word running byte1 decode_A3 fun _ => rfl

end Sys2Proof.Machine
end

section
/-! The fixed tables: the bit-field reader outside the byte (R61), the classifier's policy and map (R73 to R75), the width
contract (R66), the register names and codes (R65), the written words (R41 to R43) and the error codes (R120). -/

namespace Sys2Proof

/-- Settles O5: the reader's guard needs both indices inside the byte. -/
theorem fieldOutsideTheByteIsMalformed : Obligations.FieldOutsideTheByteIsMalformed := by
  intro b s n _ _ outside
  have notInside : ¬(0 ≤ s ∧ s ≤ 7 ∧ s + n - 1 ≤ 7 ∧ 1 ≤ n ∧ n ≤ 3) := by omega
  exact if_neg notInside

/-! ### The classifier's policy -/

section
variable {table table' : List Pattern} {b1 : Byte} {p : Pattern}

theorem classifyWith_of_none (h : table.filter (fun p => p.fits b1) = []) :
    classifyWith table b1 = .error .unrecognizedOpcode := by
  rw [classifyWith, h]

theorem classifyWith_of_one (h : table.filter (fun p => p.fits b1) = [p]) : classifyWith table b1 = .ok p.variant := by
  rw [classifyWith, h]

theorem classifyWith_of_several (h : 1 < (table.filter (fun p => p.fits b1)).length) :
    classifyWith table b1 = .error .ambiguousOpcode := by
  match matched : table.filter (fun p => p.fits b1) with
  | [] => simp [matched] at h
  | [_] => simp [matched] at h
  | _ :: _ :: _ => rw [classifyWith, matched]

/-- The triples that match are the same in another order, and only one triple has no other order. -/
theorem classifyWith_perm (h : table.Perm table') : classifyWith table' b1 = classifyWith table b1 := by
  have sameMatches := h.filter (fun p => p.fits b1)
  match matched : table.filter (fun p => p.fits b1) with
  | [] =>
    rw [matched] at sameMatches
    rw [classifyWith_of_none matched, classifyWith_of_none sameMatches.nil_eq.symm]
  | [p] =>
    rw [matched] at sameMatches
    rw [classifyWith_of_one matched, classifyWith_of_one (List.perm_singleton.1 sameMatches.symm)]
  | p :: q :: rest =>
    have several : 1 < (table.filter (fun p => p.fits b1)).length := by simp [matched]
    rw [classifyWith_of_several several, classifyWith_of_several (sameMatches.length_eq ▸ several)]

theorem filter_eq_nil_of_none_fits (h : ∀ q ∈ table, q.fits b1 = false) : table.filter (fun p => p.fits b1) = [] :=
  List.filter_eq_nil_iff.2 fun q hq => by simp [h q hq]

end

/-- Settles O9: the policy looks at how many triples match, and a lone match is what is left of the table. -/
theorem classifierPolicy : Obligations.ClassifierPolicy := by
  intro table b1
  refine ⟨fun none => classifyWith_of_none (filter_eq_nil_of_none_fits none), classifyWith_of_several, ?_,
    fun table' => classifyWith_perm, rfl⟩
  rintro before p after rfl fits others
  obtain ⟨noneBefore, noneAfter⟩ := List.forall_mem_append.1 others
  refine classifyWith_of_one ?_
  rw [List.filter_append, filter_eq_nil_of_none_fits noneBefore, List.nil_append, List.filter_cons, if_pos fits,
    filter_eq_nil_of_none_fits noneAfter]

/-- Settles O10: the map is closed, one verdict for each of the 256 bytes. -/
theorem opcodeMap : Obligations.OpcodeMap := by
  unfold Obligations.OpcodeMap
  decide +kernel

/-- Settles O11: the pairs of the seven triples are compared, and the classifier's only error is another. -/
theorem patternTableIsPrefixFree : Obligations.PatternTableIsPrefixFree :=
  ⟨by decide, fun _ ambiguous => by cases classify_eq_error ambiguous⟩

/-! ### Widths, registers and codes -/

/-- Settles O13: the width inputs are 0, 1 and the rest, and a bit is that of one of the two widths. -/
theorem widthContract : Obligations.WidthContract := by
  refine ⟨rfl, rfl, fun n two => ?_, fun b => ?_⟩
  · match n, two with
    | _ + 2, _ => rfl
  · have bit : ∀ b : BitVec 1, b = Width.byte.bit ∨ b = Width.word.bit := by decide
    rcases bit b with rfl | rfl
    · exact ⟨.byte, width_bit .byte, rfl⟩
    · exact ⟨.word, width_bit .word, rfl⟩

namespace Machine

/-- The code is the width's bit before the field (R17). -/
theorem regId_toNat (r : Reg) : (regId r).toNat = 8 * r.w.bit.toNat + r.f.toNat := by
  rw [regId, BitVec.toNat_append, ← Nat.shiftLeft_add_eq_or_of_lt r.f.isLt, Nat.shiftLeft_eq, Nat.mul_comm]

/-- Settles O12: the names are the two tables, and the code is the width's bit before the field. -/
theorem registerNamesAndCodes : Obligations.RegisterNamesAndCodes :=
  ⟨by decide, by decide, fun w f => regId_toNat ⟨w, f⟩⟩

/-- Settles O41: the six codes are not 0, and outside `Fault` the code is 0. -/
theorem errorCodes : Obligations.ErrorCodes := by
  refine ⟨rfl, rfl, rfl, rfl, rfl, rfl, fun s => ?_⟩
  cases s with
  | running o => exact ⟨fun _ _ _ _ => nofun, fun _ => rfl⟩
  | done => exact ⟨fun _ _ _ _ => nofun, fun _ => rfl⟩
  | fault k a b => exact ⟨fun zero => absurd zero (errorCode_ne_zero k), fun noFault => absurd rfl (noFault k a b)⟩

end Machine

/-- Settles O3: each word is the encoding of its instruction, with nothing after it. -/
theorem writtenWordsDecode : Obligations.WrittenWordsDecode :=
  ⟨decodeInvertsEncode (.movRmReg .word 3#3 (.register 1#3)) [] rfl,
    decodeInvertsEncode (.movRegRm .byte 0#3 (.disp8 6#3 0xFC#8)) [] rfl,
    decodeInvertsEncode (.movReg8Imm8 1#3 12#8) [] rfl,
    decodeInvertsEncode (.movReg16Imm16 2#3 0x1234#16) [] rfl,
    decodeInvertsEncode (.movAxAddr16 2555#16) [] rfl,
    decodeInvertsEncode (.movAddr8Ax 15#8) [] rfl,
    decodeInvertsEncode (.immediateToRegMemory 1#1) [] rfl,
    decodeInvertsEncode .regToSegment [] rfl,
    decodeInvertsEncode .segmentToReg [] rfl⟩

end Sys2Proof
end

section
/-! The text of a record (R9, R52, R53): the decimal numerals, the operands and the lines. -/

namespace Sys2Proof.Machine

/-! ### Numerals -/

theorem dec_natCast (n : Nat) : dec n = String.ofList (Nat.toDigits 10 n) := by
  show Int.repr (n : Int) = _
  rw [Int.repr_eq_if, if_pos (Int.natCast_nonneg n), Int.toNat_natCast, Nat.repr_eq_ofList_toDigits]

theorem toList_dec_natCast (n : Nat) : (dec n).toList = Nat.toDigits 10 n := by
  rw [dec_natCast, String.toList_ofList]

/-- A positive number's numeral does not begin with `0`: its first digit is the first of its tenth, or itself. -/
theorem head?_toDigits_ne_zero {n : Nat} (h : 0 < n) : (Nat.toDigits 10 n).head? ≠ some '0' := by
  induction n using Nat.strongRecOn with
  | ind n ih =>
    rcases Nat.lt_or_ge n 10 with digit | more
    · have notZero : ∀ d < 10, 0 < d → d.digitChar ≠ '0' := by decide
      rw [Nat.toDigits_of_lt_base digit, List.head?_cons, ne_eq, Option.some_inj]
      exact notZero n digit h
    · rw [Nat.toDigits_of_base_le (by decide) more, List.head?_append_of_ne_nil _ Nat.toDigits_ne_nil]
      exact ih (n / 10) (by omega) (by omega)

theorem dec_neg {n : Nat} (h : 0 < n) : dec (-(n : Int)) = "-" ++ dec n := by
  have negative : ¬0 ≤ -(n : Int) := by omega
  show Int.repr (-(n : Int)) = "-" ++ Int.repr (n : Int)
  rw [Int.repr_eq_if, if_neg negative, Int.neg_neg, Int.repr_eq_if, if_pos (Int.natCast_nonneg n)]

/-- Settles O21: the numeral is the library's list of digits, whose digits and value it knows. -/
theorem numeralsAreShortestDecimal : Obligations.NumeralsAreShortestDecimal := by
  refine ⟨rfl, fun n => ?_⟩
  rw [toList_dec_natCast]
  refine ⟨fun c digit => ?_, ?_, fun leadingZero => ?_, dec_neg⟩
  · simpa [Char.isDigit, Char.le_def] using Nat.isDigit_of_mem_toDigits (by decide) (by decide) digit
  · rw [← Nat.ofDigitChars_eq_foldl]
    exact Nat.ofDigitChars_ten_toDigits
  · obtain rfl : n = 0 := Nat.eq_zero_of_not_pos fun positive => head?_toDigits_ne_zero positive leadingZero
    exact ⟨rfl, rfl⟩

/-! ### Operands and lines -/

theorem operandText_immediate (v : Word16) : operandText (.immediate v) = dec v.toNat := rfl

theorem operandText_directAddress (a : Word16) : operandText (.directAddress a) = "[" ++ dec a.toNat ++ "]" := rfl

theorem operandText_displacement (rm : RegField) (n : Int) :
    operandText (.memory rm (some n)) = "[" ++ baseText rm ++ " + " ++ dec n ++ "]" := rfl

theorem line_eq (r : Record) : line r = "mov " ++ operandText r.destination ++ ", " ++ operandText r.source := by
  obtain ⟨⟨⟩, destination, source, n⟩ := r
  rfl

/-- Settles O54: each operand has the text of its form, at the value its bytes have. -/
theorem operandAndLineText : Obligations.OperandAndLineText := by
  refine ⟨line_eq, fun _ => rfl, operandText_immediate, operandText_directAddress, fun _ => rfl,
    operandText_displacement, fun b => ?_, fun lo hi => ?_, fun w rm b => ?_, fun w rm lo hi => ?_⟩
  · rw [immediate8, address8, operandText_immediate, operandText_directAddress, zeroExtend_toNat]
    exact ⟨rfl, rfl⟩
  · rw [immediate16, address16, operandText_immediate, operandText_directAddress, u16_toNat]
    exact ⟨rfl, rfl⟩
  · rw [eaOperand, operandText_displacement, s8_eq_toInt]
  · rw [eaOperand, operandText_displacement, s16_eq_toInt]
    rfl

/-- Settles O20: closed texts, read off the tables. -/
theorem workedText : Obligations.WorkedText := by
  unfold Obligations.WorkedText
  decide

end Sys2Proof.Machine
end
